-- ==== Sys2Proof/Word.lean ====
section
/-! DEFINITION. The word types of the register port, the sample byte and the command words (10 R28, 20 R60, 30 R92, R93). -/

namespace Sys2Proof

/-- A host-visible register, and the `data` of a register-port transaction: 32 bits (10 R28, 30 R92). -/
abbrev Word := BitVec 32

/-- One byte of a table or of the sink's buffer (20 R60). -/
abbrev Byte := BitVec 8

/-- A register-port transaction: the 37-bit word of 30 R92. -/
abbrev BusWord := BitVec 37

/-- The sampleCount field of a FILL command word: 28 bits (30 R93, R95). -/
abbrev Count := BitVec 28

end Sys2Proof
end

