-- ==== Sys2Proof/Machine/Exact.lean ====
section
/-! DEFINITION. Rational enclosures of the value of 40 R124 that narrow without end, and the search for the first one that decides its
rounding. It is used where the fixed-point bounds of Machine/FixedPoint.lean leave two integers, so that the entry is exact for every operand
(40 R128). That each enclosure holds the real value, and that they narrow to it, is proved in Laws/Exact.lean. Log 8. -/

namespace Sys2Proof.Machine

/-- A real number known to lie within `err` of `mid`. -/
structure Approx where
  mid : Rat
  err : Rat
  deriving DecidableEq, Repr

/-- Product with the ratio `p / q`. -/
def Approx.scale (p q : Nat) (a : Approx) : Approx := ⟨a.mid * p / q, a.err * p / q⟩

/-- Difference. -/
def Approx.sub (a b : Approx) : Approx := ⟨a.mid - b.mid, a.err + b.err⟩

/-- The enclosure with both numbers cut to `8 n` bits behind the point; the bound takes in the cut. -/
def Approx.trim (n : Nat) (a : Approx) : Approx :=
  ⟨⌊a.mid * 2 ^ (8 * n)⌋ / 2 ^ (8 * n), (⌊a.err * 2 ^ (8 * n)⌋ + 2) / 2 ^ (8 * n)⟩

/-- The first `n` terms of the series of the arctangent of `1 / k`. -/
def arctanSum (k : Nat) : Nat → Rat
  | 0 => 0
  | n + 1 => arctanSum k n + (-1) ^ n / ((2 * n + 1) * k ^ (2 * n + 1))

/-- The arctangent of `1 / k`, between two successive sums of its series. -/
def arctanApprox (k n : Nat) : Approx := ⟨arctanSum k (2 * n), arctanSum k (2 * n + 1) - arctanSum k (2 * n)⟩

/-- The number π, by Machin's formula. -/
def piApprox (n : Nat) : Approx := ((arctanApprox 5 n).scale 16 1).sub ((arctanApprox 239 n).scale 4 1)

/-- The exponential series of `i·m`: the real and imaginary parts of its term `n`, and of the sum of the `n` terms before it. -/
def expSeries (m : Rat) : Nat → (Rat × Rat) × (Rat × Rat)
  | 0 => ((1, 0), (0, 0))
  | n + 1 =>
    let p := expSeries m n
    ((-p.1.2 * m / (n + 1), p.1.1 * m / (n + 1)), (p.2.1 + p.1.1, p.2.2 + p.1.2))

/-- Sine or cosine (for Q) of an angle, by `n` terms; before the series narrows, only that both lie between -1 and 1. -/
def trigSeries (isQ : Bool) (n : Nat) (a : Approx) : Approx :=
  if 2 * |a.mid| ≤ n + 1 then
    let sum := (expSeries a.mid n).2
    ⟨if isQ then sum.1 else sum.2, a.err + |a.mid| ^ n / n.factorial * 2⟩
  else ⟨0, 1⟩

/-- Sine or cosine of an angle; the angle and the result are trimmed, so that the numbers stay short. -/
def trigApprox (isQ : Bool) (n : Nat) (a : Approx) : Approx := (trigSeries isQ n (a.trim n)).trim n

/-- The argument `x` of 40 R124, enclosed. -/
def phaseApprox (C L dnum dden s c n : Nat) : Approx :=
  ((piApprox n).scale (2 * c) C).sub ((trigApprox true n ((piApprox n).scale (2 * s) L)).scale dnum dden)

/-- The unrounded value of 40 R124, enclosed. -/
def valueApprox (isQ : Bool) (C L dnum dden A s c n : Nat) : Approx :=
  (trigApprox isQ n (phaseApprox C L dnum dden s c n)).scale A 1

/-- `round_haz` of a rational (00 R12): to the nearest integer, a tie away from zero. -/
def roundHazRat (q : Rat) : Int := if 0 ≤ q then ⌊q + 1 / 2⌋ else -⌊-q + 1 / 2⌋

/-- The rounded value, where both ends of the enclosure round to it. -/
def Approx.decided (a : Approx) : Option Int :=
  if roundHazRat (a.mid - a.err) = roundHazRat (a.mid + a.err) then some (roundHazRat (a.mid + a.err)) else none

/-- The rounding of the end further from zero, where the enclosure is narrow: the rounding of a value known to be a tie (00 R12). -/
def Approx.tie (a : Approx) : Option Int :=
  if a.err < 1 / 8 then some (if 0 ≤ a.mid then roundHazRat (a.mid + a.err) else roundHazRat (a.mid - a.err)) else none

/-- The first value a function gives from `n` on; none where it gives none for ever. -/
def firstSome {α : Type} (f : Nat → Option α) (n : Nat) : Option α :=
  match f n with
  | some a => some a
  | none => firstSome f (n + 1)
partial_fixpoint

/-- `round_haz` of the number the enclosures `a` narrow to: by the first enclosure that decides it; where none ever does, the number is
a tie (no run meets this, log 8). -/
def roundLimit (a : Nat → Approx) : Int :=
  match firstSome (fun n => (a n).decided) 0 with
  | some k => k
  | none => ((firstSome (fun n => (a n).tie) 0).getD 0)

end Sys2Proof.Machine
end

