-- ==== Sys2Proof/Machine/FixedPoint.lean ====
section
/-! DEFINITION. Fixed-point arithmetic with error bounds, in which the table entries of 40 R124 are evaluated: how the builder evaluates
sine and cosine is not architectural, provided the stored integers are those of the rule (40 R128). The meaning of a `Ball` and the
proofs that every operation keeps it are in Laws/FixedPoint.lean and Laws/Trig.lean. Log 8. -/

namespace Sys2Proof.Machine

/-- One, as a fixed-point number: 2^256. -/
def fxOne : Nat := 115792089237316195423570985008687907853269984665640564039457584007913129639936

/-- A real number known to lie within `rad / 2^256` of `mid / 2^256`. -/
structure Ball where
  mid : Int
  rad : Nat
  deriving DecidableEq, Repr

/-- One, exactly. -/
def Ball.one : Ball := ⟨fxOne, 0⟩

/-- Sum. -/
def Ball.add (x y : Ball) : Ball := ⟨x.mid + y.mid, x.rad + y.rad⟩

/-- Difference. -/
def Ball.sub (x y : Ball) : Ball := ⟨x.mid - y.mid, x.rad + y.rad⟩

/-- Product with an integer. -/
def Ball.scale (k : Nat) (x : Ball) : Ball := ⟨k * x.mid, k * x.rad⟩

/-- Quotient by a positive integer, rounded down; the bound takes in the rounding. -/
def Ball.divNat (x : Ball) (n : Nat) : Ball := ⟨x.mid / n, x.rad / n + 2⟩

/-- Product, rounded down; the bound takes in the rounding. -/
def Ball.mul (x y : Ball) : Ball :=
  ⟨x.mid * y.mid / fxOne, (x.mid.natAbs * y.rad + y.mid.natAbs * x.rad + x.rad * y.rad) / fxOne + 2⟩

/-- The polynomial `1 - t/d₁ (1 - t/d₂ (1 - ...))`. -/
def Ball.horner (t : Ball) : List Nat → Ball
  | [] => Ball.one
  | d :: ds => Ball.one.sub ((t.mul (Ball.horner t ds)).divNat d)

/-- Divisors of the cosine series: 1·2, 3·4, 5·6, ... -/
def cosDivisors : List Nat := [2, 12, 30, 56, 90, 132, 182, 240, 306, 380, 462]

/-- Divisors of the sine series: 2·3, 4·5, 6·7, ... -/
def sinDivisors : List Nat := [6, 20, 42, 72, 110, 156, 210, 272, 342, 420, 506]

/-- Sine and cosine of a number of magnitude at most 1/256, by 12 terms of the series each; one more unit covers what the series
leaves out. Outside that range, only that both lie between -1 and 1. -/
def sinCosSmall (y : Ball) : Ball × Ball :=
  if 256 * (y.mid.natAbs + y.rad) ≤ fxOne then
    let s := y.mul ((y.mul y).horner sinDivisors)
    let c := (y.mul y).horner cosDivisors
    (⟨s.mid, s.rad + 1⟩, ⟨c.mid, c.rad + 1⟩)
  else (⟨0, fxOne⟩, ⟨0, fxOne⟩)

/-- From the sine and cosine of an angle to those of `2^k` times it. -/
def doubleAngle : Nat → Ball × Ball → Ball × Ball
  | 0, p => p
  | k + 1, p => doubleAngle k ((p.1.mul p.2).scale 2, Ball.one.sub ((p.1.mul p.1).scale 2))

/-- How often an angle is halved before the series is used. -/
def halvings (x : Ball) : Nat := Nat.log2 (x.mid.natAbs / fxOne + 1) + 10

/-- Sine and cosine. -/
def sinCos (x : Ball) : Ball × Ball := doubleAngle (halvings x) (sinCosSmall (x.divNat (2 ^ halvings x)))

/-- The number π. -/
def piBall : Ball :=
  ⟨363771576891766324280234942777729862653393377328392429958772151117938894466185, 1099511627776⟩

/-- `round_haz` of a fixed-point number (00 R12): to the nearest integer, a tie away from zero. -/
def roundHazFx (m : Int) : Int :=
  if 0 ≤ m then (2 * m + fxOne) / (2 * fxOne) else -((-2 * m + fxOne) / (2 * fxOne))

end Sys2Proof.Machine
end

