-- ==== Sys2Proof/Machine/Entry.lean ====
section
/-! DEFINITION. The table-content function of 40 R124: `sat8 (round_haz (A · sin x))` for I and `sat8 (round_haz (A · cos x))` for Q, with
`x = 2πc/C − (Dnum/Dden)·cos(2πs/L)`. The value is the exact one for every operand: by fixed point with error bounds where these decide the
rounding, by enclosures that narrow without end elsewhere (log 8). -/

namespace Sys2Proof.Machine

/-- `sat8` (00 R12, 40 R126). -/
def sat8 (k : Int) : Int := max (-128) (min 127 k)

/-- The argument `x` of 40 R124. -/
def entryPhase (C L dnum dden s c : Nat) : Ball :=
  ((piBall.scale (2 * c)).divNat C).sub (((sinCos ((piBall.scale (2 * s)).divNat L)).2.scale dnum).divNat dden)

/-- The tone phase at which the modulating cosine is exactly zero: a quarter or three quarters of the cycle (DEDUCED, log 8). -/
def quarterCycle (L s : Nat) : Bool := 4 * s == L || 4 * s == 3 * L

/-- Where the sine (the cosine, for Q) of `2πc/C` is exactly one half, `1`; where it is exactly minus one half, `-1` (DEDUCED, log 8). -/
def halfSign (isQ : Bool) (C c : Nat) : Option Int :=
  if isQ then
    if 6 * c == C || 6 * c == 5 * C then some 1
    else if 6 * c == 2 * C || 6 * c == 4 * C then some (-1) else none
  else
    if 12 * c == C || 12 * c == 5 * C then some 1
    else if 12 * c == 7 * C || 12 * c == 11 * C then some (-1) else none

/-- The unrounded value `A · sin x` or `A · cos x` of 40 R124. -/
def entryValue (isQ : Bool) (C L dnum dden A s c : Nat) : Ball :=
  let p := sinCos (entryPhase C L dnum dden s c)
  (if isQ then p.2 else p.1).scale A

/-- The rounded lower end of what is known of the unrounded value; it is never below `-A` (40 R126). -/
def entryLow (isQ : Bool) (C L dnum dden A s c : Nat) : Int :=
  let v := entryValue isQ C L dnum dden A s c
  roundHazFx (max (v.mid - v.rad) (-(A * fxOne : Nat)))

/-- The rounded upper end; it is never above `A` (40 R126). -/
def entryHigh (isQ : Bool) (C L dnum dden A s c : Nat) : Int :=
  let v := entryValue isQ C L dnum dden A s c
  roundHazFx (min (v.mid + v.rad) (A * fxOne : Nat))

/-- The rounded value of 40 R124, before the clamp: the exact ties first, where the value is plus or minus `A / 2`; then the fixed-point value
where both its ends round to one integer; the enclosures otherwise. -/
def entryRounded (isQ : Bool) (C L dnum dden A s c : Nat) : Int :=
  match if quarterCycle L s then halfSign isQ C c else none with
  | some sign => sign * ((A + 1) / 2 : Nat)
  | none =>
    let lo := entryLow isQ C L dnum dden A s c
    if lo = entryHigh isQ C L dnum dden A s c then lo else roundLimit (valueApprox isQ C L dnum dden A s c)

/-- The entry function of 40 R124. -/
def entry (isQ : Bool) (C L dnum dden A s c : Nat) : Int := sat8 (entryRounded isQ C L dnum dden A s c)

end Sys2Proof.Machine
end

