-- ==== Sys2Proof/Config.lean ====
section
/-! DEFINITION. What is fixed when one instance of the block is made: its capacities (00 R7, 92 D5, 93 U14). They are arguments of the model:
a state holds those of its instance, and every statement is about every instance. -/

namespace Sys2Proof

/-- The capacities of the carrier dimension, `CMAX`, and of the tone dimension, `LMAX`, of the tables. -/
structure Capacities where
  cMax : Nat
  lMax : Nat
  deriving DecidableEq, Repr

/-- The capacities an instance can be made with (00 R7, 92 open parameters). -/
abbrev Capacities.Legal (k : Capacities) : Prop := 10 ≤ k.cMax ∧ 6666 ≤ k.lMax ∧ k.lMax ^ 2 < 2 ^ 32

/-- The reference values (00 R7, 92 D5). -/
def Capacities.reference : Capacities := ⟨16, 8192⟩

end Sys2Proof
end

