-- ==== Sys2Proof/Syntax.lean ====
section
/-! DEFINITION. The operations of the register port as syntax: the sixteen register names (10 R28) and one constructor per row of
spec/opcode_table.json (30 R94, R96). RESET is a pin and has no row (30 R91): it is a move of the host, `HostMove.reset` in
Machine/State.lean. -/

namespace Sys2Proof

/-- The sixteen host-visible registers, in the order of their indices 0 to 15 (10 R28). -/
inductive Reg where
  | cfgC | cfgLm | cfgLs | cfgDnum | cfgDden | cfgA | cfgR | cfgT0
  | buflen
  | cph | mph | sph | tone | cnt
  | status
  | cmd
  deriving DecidableEq, Repr

/-- The operations the port decodes, one constructor per row of the opcode table. -/
inductive Instr where
  /-- `RDREG idx` (42 R200). The `data` bits of a read are ignored (30 R92) and are no part of the operation. -/
  | rdreg (r : Reg)
  /-- `BUILD` (40 R120). -/
  | build
  /-- `FILL n` (41 R150). -/
  | fill (n : Count)
  /-- A reserved command word (30 R97). -/
  | reservedCmd (word : Word)
  /-- `WRREG idx, v`, indices 0 to 14 (42 R201 to R203). -/
  | wrreg (r : Reg) (v : Word)
  deriving DecidableEq, Repr

end Sys2Proof
end

