-- ==== Sys2Proof/WellFormed.lean ====
section
/-! DEFINITION. Which terms of `Instr` are operations of the block: the syntactic side conditions of 30 R96, R97 and 42 R204. -/

namespace Sys2Proof

/-- The command words that are BUILD or FILL (30 R93): `op = 1` with `arg = 0`, and `op = 2`. -/
def isCommandWord (word : Word) : Bool :=
  word == 0x10000000#32 || word.extractLsb' 28 4 == 2#4

/-- A write to `CMD` is never a WRREG (42 R204), and a reserved command is a word that is neither BUILD nor FILL (30 R97).
Every other term is an operation. -/
def Instr.wellFormed : Instr → Bool
  | .rdreg _ => true
  | .build => true
  | .fill _ => true
  | .reservedCmd word => !isCommandWord word
  | .wrreg r _ => r != .cmd

/-- `Instr.wellFormed` as a proposition. -/
abbrev Instr.WellFormed (i : Instr) : Prop := i.wellFormed = true

end Sys2Proof
end

