-- ==== Sys2Proof/Decode.lean ====
section
/-! DEFINITION. The encodings of 30_encoding.md: register indices (10 R28), the decoder of a register-port transaction (R94) and the
encoder written from the same formats (R92, R93, R96). -/

namespace Sys2Proof

/-- The index of a register (10 R28). -/
def Reg.idx : Reg → BitVec 4
  | .cfgC => 0 | .cfgLm => 1 | .cfgLs => 2 | .cfgDnum => 3 | .cfgDden => 4 | .cfgA => 5 | .cfgR => 6 | .cfgT0 => 7
  | .buflen => 8
  | .cph => 9 | .mph => 10 | .sph => 11 | .tone => 12 | .cnt => 13
  | .status => 14
  | .cmd => 15

/-- The registers in the order of their indices. -/
def Reg.all : List Reg :=
  [.cfgC, .cfgLm, .cfgLs, .cfgDnum, .cfgDden, .cfgA, .cfgR, .cfgT0, .buflen, .cph, .mph, .sph, .tone, .cnt, .status, .cmd]

/-- The register with a given index: all indices are defined, none is reserved (10 R28). -/
def Reg.ofIdx (i : BitVec 4) : Reg := Reg.all.getD i.toNat .cmd

/-- The command of a 32-bit word written to `CMD` (30 R93, the last three lines of R94). -/
def decodeCmd (word : Word) : Instr :=
  if word.extractLsb' 28 4 = 1#4 ∧ word.extractLsb' 0 28 = 0#28 then .build
  else if word.extractLsb' 28 4 = 2#4 then .fill (word.extractLsb' 0 28)
  else .reservedCmd word

/-- The operation of a register-port transaction (30 R94): total, the first line that matches decides. -/
def decode (w : BusWord) : Instr :=
  if w.extractLsb' 36 1 = 0#1 then .rdreg (Reg.ofIdx (w.extractLsb' 32 4))
  else if w.extractLsb' 32 4 ≠ 15#4 then .wrreg (Reg.ofIdx (w.extractLsb' 32 4)) (w.extractLsb' 0 32)
  else decodeCmd (w.extractLsb' 0 32)

/-- Why a number is no register-port transaction. -/
inductive DecodeReject where
  /-- A transaction has 37 bits and no other length (30 R92, R98). Safe: the number is given no meaning. -/
  | widerThanBus
  deriving DecidableEq, Repr

/-- The decoder on any number: a number of more than 37 bits is rejected by name. -/
def decodeNat (w : Nat) : Except DecodeReject Instr :=
  if w < 2 ^ 37 then .ok (decode (BitVec.ofNat 37 w)) else .error .widerThanBus

/-- The host's question about a row of the opcode table: the instruction read from the word whose bits are `w`; bits from `nbits` on
are zero. A transaction is one 37-bit number (30 R92), so there is no byte order to choose. -/
def decodeTableWord (nbits w : Nat) : Option Instr :=
  match decodeNat (w % 2 ^ nbits) with
  | .ok i => some i
  | .error _ => none

/-- The fields of format BUS put together (30 R92). -/
def busWord (rw : BitVec 1) (idx : BitVec 4) (data : Word) : BusWord := (rw ++ idx) ++ data

/-- The fields of format CMD put together (30 R93). -/
def cmdWord (op : BitVec 4) (arg : Count) : Word := op ++ arg

/-- The transaction that carries an operation (30 R92, R93, R96). The ignored `data` of a read is sent as 0 (log 15). -/
def encode : Instr → BusWord
  | .rdreg r => busWord 0 r.idx 0
  | .build => busWord 1 15 (cmdWord 1 0)
  | .fill n => busWord 1 15 (cmdWord 2 n)
  | .reservedCmd word => busWord 1 15 word
  | .wrreg r v => busWord 1 r.idx v

end Sys2Proof
end

