-- ==== Sys2Proof/Machine/State.lean ====
section
/-! DEFINITION. The state of the block (10_state.md), as plain data; its reset value (10 R44); the reasons a step can stop. -/

namespace Sys2Proof.Machine

/-- `TONE`: 0 Space, 1 Mark (10 R24, 92 D19). -/
inductive Tone where
  | space | mark
  deriving DecidableEq, Repr

/-- The two tables of a tone: I is the sine, Q the cosine (40 R124). -/
inductive Channel where
  | I | Q
  deriving DecidableEq, Repr

/-- `STATUS.MODE`: 0 Unbuilt, 1 Ready, 2 Faulted; 3 never occurs (10 R36, R38). -/
inductive Mode where
  | unbuilt | ready | faulted
  deriving DecidableEq, Repr

/-- `STATUS.ERR`: 0 none, 1, 2, 3 the three kinds of fault; 4 to 15 never occur (10 R36, 60 R220). -/
inductive Err where
  | none | configurationError | preconditionViolation | protocolViolation
  deriving DecidableEq, Repr

/-- The eight configuration registers, indices 0 to 7 (10 R30 to R33). -/
structure CfgRegs where
  c    : Word
  lm   : Word
  ls   : Word
  dnum : Word
  dden : Word
  a    : Word
  r    : Word
  t0   : Word
  deriving DecidableEq, Repr

/-- The four tables (10 R39): row `s` is the tone phase, column `c` the carrier phase, an entry one signed byte as its two's
complement pattern (20 R60, R64). -/
structure Tables where
  markI  : List (List Byte)
  markQ  : List (List Byte)
  spaceI : List (List Byte)
  spaceQ : List (List Byte)
  deriving DecidableEq, Repr

/-- The sink's buffer: the bytes known of it, by offset (20 R60). An offset that is not listed has no value in the model: it keeps
whatever the host left there (20 R65). Log 4, safe. -/
abbrev Memory := List Host.Cell

/-- What the host does next (30 R90, 70 R278). -/
inductive HostMove where
  /-- The reset pin (30 R91, 70 R260). -/
  | reset
  /-- A register-port transaction: RDREG, WRREG, BUILD, FILL or a reserved command (30 R92). -/
  | bus (w : BusWord)
  /-- The host hands over a buffer for its next FILLs, of exactly these bytes, and takes the previous one back (20 R62, 70 R269,
  R278). Log 5. -/
  | handOver (bytes : List Byte)
  deriving DecidableEq, Repr

/-- The machine. -/
structure State where
  /-- `CMAX` and `LMAX` of this instance: no register but an argument of the step, which nothing writes (00 R7, 10 R43). Log 7. -/
  caps    : Capacities
  /-- Registers 0 to 7. -/
  cfg     : CfgRegs
  /-- Register 8, `BUFLEN` (10 R35). -/
  buflen  : Word
  /-- Register 9, carrierPhase (10 R21), as it is read: of its 32 bits the lowest `caps.carrierBits` exist, the others are zero. -/
  cph     : Word
  /-- Register 10, markPhase (10 R22), as it is read: of its 32 bits the lowest `caps.toneBits` exist. -/
  mph     : Word
  /-- Register 11, spacePhase (10 R23), as it is read: of its 32 bits the lowest `caps.toneBits` exist. -/
  sph     : Word
  /-- Register 12, activeTone (10 R24). -/
  tone    : Tone
  /-- Register 13, samplesSinceSwitch (10 R25). -/
  cnt     : Word
  /-- `STATUS.MODE` (10 R36, R38). -/
  mode    : Mode
  /-- `STATUS.ERR` (10 R36). -/
  err     : Err
  /-- `STATUS.ERRINFO` (10 R36). -/
  errInfo : Byte
  /-- The four tables; `none` while they hold no value (10 R39: the spec's own state, not a missing reset value). -/
  tables  : Option Tables
  /-- The buffer presently handed over (20 R62). -/
  buf     : Memory
  /-- The real size of that buffer in bytes, where it is known (70 R268; the core itself never sees it). Log 6. -/
  bufSize : Option Nat
  /-- The buffers handed over before it, oldest first (70 R277). Log 5. -/
  taken   : List Memory
  /-- The host's moves not yet performed, oldest first (the model's own field). Log 1. -/
  port    : List HostMove
  /-- What the port returned for the last move, if it was a read (30 R92; the model's own field). Log 3. -/
  answer  : Option Word
  deriving DecidableEq, Repr

/-- After reset, for an instance of given capacities: every register holds 0, the mode is Unbuilt, the tone is Space and the tables hold
no value (10 R44). No move is pending, nothing has been returned, and the buffer is one of which neither a byte nor the size is known
(DESIGN CHOICE, logs 1, 3, 4, 5, 6). -/
def State.resetOf (k : Capacities) : State where
  caps    := k
  cfg     := ⟨0, 0, 0, 0, 0, 0, 0, 0⟩
  buflen  := 0
  cph     := 0
  mph     := 0
  sph     := 0
  tone    := .space
  cnt     := 0
  mode    := .unbuilt
  err     := .none
  errInfo := 0
  tables  := none
  buf     := []
  bufSize := none
  taken   := []
  port    := []
  answer  := none

/-- The reset state of the instance with the reference capacities (DESIGN CHOICE, log 7; `State.resetOf` is that of any other). -/
def State.reset : State := State.resetOf Capacities.reference

/-- Internal errors: each is an access or a result the spec shows never to occur in a state a run reaches (20 R61, 41 R163). A fault of
the BLOCK (60 R228) is none of these: it is a next state. All are safe (log 12). -/
inductive Fault where
  /-- Raised by a table read whose indices are outside the table (20 R61). Safe. -/
  | tableIndex
  /-- Raised by a table read while the tables hold no value (10 R39, 20 R61). Safe. -/
  | tablesAbsent
  /-- Raised by a buffer write at an offset not below `BUFLEN` (20 R62). Safe. -/
  | bufferOverrun
  /-- Raised by XLATE when the active tone's cycle length is not positive (41 R160: it always is after BUILD). Safe. -/
  | zeroCycleLength
  /-- Raised by a store of a value that does not fit its register (00 R10, 41 R156, R160, R162: it always fits after BUILD). Safe. -/
  | registerRange
  deriving DecidableEq, Repr

/-- What is outside the model: a term that is no operation of the block, and a FILL whose launch premise is broken. -/
inductive Refusal where
  /-- Raised by `exec` for an instruction that has no meaning yet. Safe. -/
  | notModelled (mnemonic : String)
  /-- Raised by `WRREG` of register `CMD`: a write with index 15 is never a WRREG (42 R204), the decoder never gives it, and no form of
  the spec is refused by it. Safe (log 13). -/
  | cmdIsNoWrreg
  /-- Raised by a `FILL` that passes its admission tests while `BUFLEN` is larger than the real buffer: the launch premise of every FILL
  is broken, and the case is outside the model (70 R268; 93 U12: `refuse`). Safe (log 6). -/
  | buflenUntrue
  deriving DecidableEq, Repr

end Sys2Proof.Machine
end

