-- ==== Sys2Proof/Machine/Flags.lean ====
section
/-! DEFINITION. The codes of the status fields and the `STATUS` word (10 R36). The block has no arithmetic flags and no condition codes
(10 R40), so no other flag is computed anywhere. -/

namespace Sys2Proof.Machine

/-- The code of `MODE` (10 R36). -/
def Mode.code : Mode → Nat
  | .unbuilt => 0 | .ready => 1 | .faulted => 2

/-- The code of `ERR` (10 R36, 60 R220). -/
def Err.code : Err → Nat
  | .none => 0 | .configurationError => 1 | .preconditionViolation => 2 | .protocolViolation => 3

/-- The code of `TONE` (10 R24). -/
def Tone.code : Tone → Nat
  | .space => 0 | .mark => 1

/-- The tone of a code bit (10 R33). -/
def Tone.ofBit (b : Bool) : Tone := if b then .mark else .space

/-- The other tone: Mark becomes Space, Space becomes Mark (41 R162). -/
def Tone.other : Tone → Tone
  | .space => .mark | .mark => .space

/-- The `STATUS` word: `MODE` in bits 1:0, `ERR` in bits 7:4, `ERRINFO` in bits 15:8, zero elsewhere (10 R36). -/
def State.statusWord (s : State) : Word :=
  (0#16 ++ s.errInfo ++ BitVec.ofNat 4 s.err.code ++ 0#2 ++ BitVec.ofNat 2 s.mode.code : BitVec (16 + 8 + 4 + 2 + 2))

/-- The `fault` output: high exactly in Faulted (60 R225). -/
def State.faultLevel (s : State) : Bool := s.mode == .faulted

end Sys2Proof.Machine
end

