-- ==== Sys2Proof/Machine/Operands.lean ====
section
/-! DEFINITION. The widths of the phase registers (10 R21 to R23), operand assembly (30 R95) and the sample encoding (00 R11, 20 R64). -/

namespace Sys2Proof

/-- The bits that hold every phase below `n`: `ceil(log2 n)` (92 open parameters). A phase is below a cycle length, itself below 2^31, and is
read as 32 bits, so no register has more than 32 (DEDUCED, log 7). -/
def phaseBits (n : Nat) : Nat := min 32 (Nat.log2 (n - 1) + 1)

/-- The width of `CPH` (10 R21). -/
def Capacities.carrierBits (k : Capacities) : Nat := phaseBits k.cMax

/-- The width of `MPH` and `SPH` (10 R22, R23). -/
def Capacities.toneBits (k : Capacities) : Nat := phaseBits k.lMax

end Sys2Proof

namespace Sys2Proof.Machine

/-- `sext_32` (00 R11). -/
def sext32 (v : Word) : Int := v.toInt

/-- `tc8`: the two's complement pattern of an integer between -128 and 127 (00 R11, 20 R64). -/
def tc8 (x : Int) : Byte := BitVec.ofInt 8 x

/-- The operand `C` (30 R95). -/
def CfgRegs.opC (g : CfgRegs) : Int := sext32 g.c

/-- The operand `Lm` (30 R95). -/
def CfgRegs.opLm (g : CfgRegs) : Int := sext32 g.lm

/-- The operand `Ls` (30 R95). -/
def CfgRegs.opLs (g : CfgRegs) : Int := sext32 g.ls

/-- The operand `Dnum` (30 R95). -/
def CfgRegs.opDnum (g : CfgRegs) : Int := sext32 g.dnum

/-- The operand `Dden` (30 R95). -/
def CfgRegs.opDden (g : CfgRegs) : Int := sext32 g.dden

/-- The operand `A` (30 R95). -/
def CfgRegs.opA (g : CfgRegs) : Int := sext32 g.a

/-- The operand `R` (30 R95). -/
def CfgRegs.opR (g : CfgRegs) : Int := sext32 g.r

/-- The operand `T0`, bit 0 of `CFG_T0`; bits 31:1 have no effect (10 R33, 30 R95). -/
def CfgRegs.opT0 (g : CfgRegs) : Tone := Tone.ofBit (g.t0.getLsbD 0)

/-- The carrier cycle length as a count; it is positive once BUILD has validated it (40 R122). -/
def CfgRegs.carrierLen (g : CfgRegs) : Nat := g.opC.toNat

/-- The cycle length of a tone as a count: `L_Mark = Lm`, `L_Space = Ls` (20 R61). -/
def CfgRegs.toneLen (g : CfgRegs) : Tone → Nat
  | .mark => g.opLm.toNat
  | .space => g.opLs.toNat

/-- The phase register of a tone: `MPH` or `SPH` (10 R22, R23). -/
def State.phase (s : State) : Tone → Word
  | .mark => s.mph
  | .space => s.sph

/-- The buffer capacity in bytes, unsigned (10 R35, 30 R95). -/
def State.capacity (s : State) : Nat := s.buflen.toNat

/-- The launch premise of every FILL: `BUFLEN ≤` (real buffer size) (70 R268). A buffer of unknown size meets it (log 6). -/
def State.buflenTrue (s : State) : Bool :=
  match s.bufSize with
  | none => true
  | some size => decide (s.capacity ≤ size)

end Sys2Proof.Machine
end

