-- ==== Sys2Proof/Machine/Ops.lean ====
section
/-! DEFINITION. The named operations over the state: the updates of its fields, the sink's buffer, table reads, register reads and writes,
fault entry (60 R228), RESET (70 R260) and the host's moves (70 R278). -/

namespace Sys2Proof.Machine

/-! ## The sink's buffer -/

/-- The byte known at an offset of a buffer; none where nothing is known of it (20 R65, log 4). -/
def Memory.read : Memory → Nat → Option Byte
  | [], _ => none
  | (a, b) :: m, off => if a = off then some b else Memory.read m off

/-- Store a byte at an offset, keeping the offsets strictly rising. -/
def Memory.write : Memory → Nat → Byte → Memory
  | [], off, v => [(off, v)]
  | (a, b) :: m, off, v =>
    if off < a then (off, v) :: (a, b) :: m
    else if off = a then (off, v) :: m
    else (a, b) :: Memory.write m off v

/-- The cells of a list of bytes from an offset on. -/
def Memory.ofBytes : Nat → List Byte → Memory
  | _, [] => []
  | off, b :: bs => (off, b) :: Memory.ofBytes (off + 1) bs

/-- The canonical form: offsets strictly rising. (An unlisted offset has no value, so no entry can repeat one.) -/
def Memory.wf : Memory → Bool
  | [] => true
  | [_] => true
  | (a, _) :: (a', b') :: m => decide (a < a') && Memory.wf ((a', b') :: m)

/-! ## Updates of the state -/

/-- Replace the configuration registers. -/
def State.setCfg (s : State) (g : CfgRegs) : State := { s with cfg := g }

/-- Write `BUFLEN`. -/
def State.setBuflen (s : State) (v : Word) : State := { s with buflen := v }

/-- Write `CPH`. -/
def State.setCph (s : State) (v : Word) : State := { s with cph := v }

/-- Write the phase register of a tone. -/
def State.setPhase (s : State) (t : Tone) (v : Word) : State :=
  { s with mph := if t = .mark then v else s.mph, sph := if t = .space then v else s.sph }

/-- Write `TONE` and `CNT`. -/
def State.setToneCnt (s : State) (t : Tone) (v : Word) : State := { s with tone := t, cnt := v }

/-- Replace the contents of the buffer. -/
def State.setBuf (s : State) (m : Memory) : State := { s with buf := m }

/-- Return a value at the port. -/
def State.setAnswer (s : State) (v : Word) : State := { s with answer := some v }

/-- What BUILD leaves (40 R127): tables held, phases and counter zero, the start tone active, Ready with no fault recorded. -/
def State.load (s : State) (t : Tables) (tone : Tone) : State :=
  { s with tables := some t, cph := 0, mph := 0, sph := 0, cnt := 0, tone := tone, mode := .ready }

/-- Fault entry, `raise K(info)` (60 R228): the fault record and the mode, and nothing else. It is the one way into Faulted. There is no
return from it but RESET (60 R230). -/
def State.raise (s : State) (k : Err) (info : Byte) : State :=
  { s with err := k, errInfo := info, mode := .faulted }

/-- RESET (70 R260): every register takes its reset value and the tables are discarded; the capacities, the buffers, the host's later moves
and what the port returned are no register of the block (log 11). -/
def State.resetBlock (s : State) : State :=
  { State.resetOf s.caps with buf := s.buf, bufSize := s.bufSize, taken := s.taken, port := s.port, answer := s.answer }

/-- The host takes its buffer back and hands over another, of the given bytes (20 R62, 70 R269, R278). DESIGN CHOICE (log 5): 70 R278 has the
host hand over a buffer at each FILL; a host that hands over none writes on into the last one. Before the first hand-over there is
the buffer of the reset state, of unknown size and contents, which a FILL may write and which the first hand-over takes back as it would any
other, though no rule says that the host handed it over. -/
def State.handOver (s : State) (bytes : List Byte) : State :=
  { s with buf := Memory.ofBytes 0 bytes, bufSize := some bytes.length, taken := s.taken ++ [s.buf] }

/-- The port takes a move of the host: the move leaves the queue, and the answer to the move before it is gone (log 3). -/
def State.accept (s : State) (rest : List HostMove) : State := { s with port := rest, answer := none }

/-! ## Stores of computed values -/

/-- Store a carrier phase; the rules show it fits (41 R156). -/
def State.storeCph (s : State) (v : Nat) : Except Fault State :=
  if v < 2 ^ s.caps.carrierBits then .ok (s.setCph (BitVec.ofNat 32 v)) else .error .registerRange

/-- Store a tone phase; the rules show it fits (41 R156, R160). -/
def State.storePhase (s : State) (t : Tone) (v : Nat) : Except Fault State :=
  if v < 2 ^ s.caps.toneBits then .ok (s.setPhase t (BitVec.ofNat 32 v)) else .error .registerRange

/-- Store tone and counter; the rules show the counter fits (41 R150, R162). -/
def State.storeToneCnt (s : State) (t : Tone) (v : Int) : Except Fault State :=
  if 0 ≤ v ∧ v < 2 ^ 32 then .ok (s.setToneCnt t (BitVec.ofNat 32 v.toNat)) else .error .registerRange

/-! ## Tables and buffer -/

/-- One of the four tables. -/
def Tables.get (t : Tables) : Tone → Channel → List (List Byte)
  | .mark, .I => t.markI
  | .mark, .Q => t.markQ
  | .space, .I => t.spaceI
  | .space, .Q => t.spaceQ

/-- The byte a table stores at `(s, c)`, if it has one there. -/
def Tables.at (t : Tables) (tone : Tone) (ch : Channel) (s c : Nat) : Option Byte :=
  match (t.get tone ch)[s]? with
  | some row => row[c]?
  | none => none

/-- `Tab[t][ch][s][c]` (20 R61): a signed integer; outside the ranges `0 ≤ s < L_t`, `0 ≤ c < C`, or while the tables hold no value, an
internal error and never a value. -/
def State.readTab (s : State) (t : Tone) (ch : Channel) (i c : Nat) : Except Fault Int :=
  match s.tables with
  | none => .error .tablesAbsent
  | some tab =>
    if i < s.cfg.toneLen t ∧ c < s.cfg.carrierLen then
      match tab.at t ch i c with
      | some b => .ok b.toInt
      | none => .error .tableIndex
    else .error .tableIndex

/-- `BufWrite(off, b)` (20 R62): an offset not below `BUFLEN` is an internal error, since FILL checks the capacity first. -/
def State.bufWrite (s : State) (off : Nat) (b : Byte) : Except Fault State :=
  if off < s.capacity then .ok (s.setBuf (s.buf.write off b)) else .error .bufferOverrun

/-! ## Host-visible registers -/

/-- The configuration register of an index from 0 to 7 (10 R28). -/
def CfgRegs.get (g : CfgRegs) : Reg → Option Word
  | .cfgC => some g.c
  | .cfgLm => some g.lm
  | .cfgLs => some g.ls
  | .cfgDnum => some g.dnum
  | .cfgDden => some g.dden
  | .cfgA => some g.a
  | .cfgR => some g.r
  | .cfgT0 => some g.t0
  | _ => none

/-- The configuration registers after a write of one of them; any other register leaves them alone. -/
def CfgRegs.set (g : CfgRegs) (r : Reg) (v : Word) : CfgRegs :=
  match r with
  | .cfgC => { g with c := v }
  | .cfgLm => { g with lm := v }
  | .cfgLs => { g with ls := v }
  | .cfgDnum => { g with dnum := v }
  | .cfgDden => { g with dden := v }
  | .cfgA => { g with a := v }
  | .cfgR => { g with r := v }
  | .cfgT0 => { g with t0 := v }
  | _ => g

/-- The class of a register (10 R28). -/
inductive RegClass where
  | configuration | operand | readOnly | command
  deriving DecidableEq, Repr

/-- The class column of 10 R28. -/
def regClass : Reg → RegClass
  | .cfgC | .cfgLm | .cfgLs | .cfgDnum | .cfgDden | .cfgA | .cfgR | .cfgT0 => .configuration
  | .buflen => .operand
  | .cph | .mph | .sph | .tone | .cnt | .status => .readOnly
  | .cmd => .command

/-- `zext_32(reg[idx])` (42 R200): what a read of a register returns. `CMD` reads 0 (10 R37). -/
def State.readReg (s : State) (r : Reg) : Word :=
  match r with
  | .cfgC => s.cfg.c
  | .cfgLm => s.cfg.lm
  | .cfgLs => s.cfg.ls
  | .cfgDnum => s.cfg.dnum
  | .cfgDden => s.cfg.dden
  | .cfgA => s.cfg.a
  | .cfgR => s.cfg.r
  | .cfgT0 => s.cfg.t0
  | .buflen => s.buflen
  | .cph => s.cph
  | .mph => s.mph
  | .sph => s.sph
  | .tone => BitVec.ofNat 32 s.tone.code
  | .cnt => s.cnt
  | .status => s.statusWord
  | .cmd => 0

/-- Whether a mode lets the host write a class of registers (10 R29, R34). -/
def RegClass.writableIn : RegClass → Mode → Bool
  | .configuration, .unbuilt => true
  | .operand, .unbuilt => true
  | .operand, .ready => true
  | _, _ => false

/-- Store a written register, all 32 bits (42 R201, R202). -/
def State.writeReg (s : State) (r : Reg) (v : Word) : State :=
  match regClass r with
  | .configuration => s.setCfg (s.cfg.set r v)
  | .operand => s.setBuflen v
  | .readOnly | .command => s

/-! ## Outcomes -/

/-- The outcome of an operation that can meet an internal error. -/
def toOutcome : Except Fault State → Host.Outcome State Fault Refusal
  | .ok s => .next s
  | .error f => .fault f

end Sys2Proof.Machine
end

