-- ==== Sys2Proof/Machine/Builder.lean ====
section
/-! DEFINITION. The Waveform Table Builder, BUILD (40_table_builder.md). -/

namespace Sys2Proof.Machine

/-- The validation of 40 R122, in its fixed order, for an instance of given capacities: the index of the first register whose test
fails. -/
def CfgRegs.firstInvalid (g : CfgRegs) (k : Capacities) : Option Byte :=
  if g.opC < 1 ∨ g.opC > k.cMax then some 0
  else if g.opLm < 1 ∨ g.opLm > k.lMax then some 1
  else if g.opLs < 1 ∨ g.opLs > k.lMax then some 2
  else if g.opDnum < 1 then some 3
  else if g.opDden < 1 then some 4
  else if g.opA < 1 ∨ g.opA > 127 then some 5
  else if g.opR < 1 then some 6
  else none

/-- The entry of a table for a configuration: I is the sine, Q the cosine, and the tones differ only in the length (40 R124). -/
def CfgRegs.entry (g : CfgRegs) (t : Tone) (ch : Channel) (s c : Nat) : Int :=
  Sys2Proof.Machine.entry (ch == .Q) g.carrierLen (g.toneLen t) g.opDnum.toNat g.opDden.toNat g.opA.toNat s c

/-- One table, fully populated (40 R120, R130): rows `0 .. L_t - 1`, columns `0 .. C - 1`. -/
def CfgRegs.table (g : CfgRegs) (t : Tone) (ch : Channel) : List (List Byte) :=
  (List.range (g.toneLen t)).map fun s => (List.range g.carrierLen).map fun c => tc8 (g.entry t ch s c)

/-- The four tables of a configuration. -/
def CfgRegs.tables (g : CfgRegs) : Tables where
  markI := g.table .mark .I
  markQ := g.table .mark .Q
  spaceI := g.table .space .I
  spaceQ := g.table .space .Q

/-- BUILD (40 R120): discarded in Faulted; ProtocolViolation(2) in Ready (R121); ConfigurationError(k) by the first failing test (R122, R123);
otherwise the tables, and the state of R127. -/
def execBuild (s : State) : Host.Outcome State Fault Refusal :=
  match s.mode with
  | .faulted => .next s
  | .ready => .next (s.raise .protocolViolation 2)
  | .unbuilt =>
    match s.cfg.firstInvalid s.caps with
    | some k => .next (s.raise .configurationError k)
    | none => .next (s.load s.cfg.tables s.cfg.opT0)

end Sys2Proof.Machine
end

