-- ==== Sys2Proof/Machine/HostAccess.lean ====
section
/-! DEFINITION. RDREG and WRREG (42_host_register_access.md). -/

namespace Sys2Proof.Machine

/-- RDREG (42 R200): in every mode; the only effect is the value returned. -/
def execRdreg (r : Reg) (s : State) : Host.Outcome State Fault Refusal := .next (s.setAnswer (s.readReg r))

/-- WRREG (42 R201 to R203, 60 R231): discarded in Faulted; stored where class and mode allow it; ProtocolViolation(3) otherwise. A write of
`CMD` is no WRREG (42 R204, log 13). -/
def execWrreg (r : Reg) (v : Word) (s : State) : Host.Outcome State Fault Refusal :=
  if r = .cmd then .refused .cmdIsNoWrreg
  else if s.mode = .faulted then .next s
  else if (regClass r).writableIn s.mode then .next (s.writeReg r v)
  else .next (s.raise .protocolViolation 3)

end Sys2Proof.Machine
end

