-- ==== Sys2Proof/Machine/Reserved.lean ====
section
/-! DEFINITION. Reserved command words (30 R97). -/

namespace Sys2Proof.Machine

/-- A reserved command (30 R97, 60 R231): discarded in Faulted, ProtocolViolation(0) otherwise, whatever the word. -/
def execReservedCmd (_word : Word) (s : State) : Host.Outcome State Fault Refusal :=
  if s.mode = .faulted then .next s else .next (s.raise .protocolViolation 0)

end Sys2Proof.Machine
end

