-- ==== Sys2Proof/Machine/Synthesizer.lean ====
section
/-! DEFINITION. The Streaming Synthesizer, FILL, and its micro-operations EMIT, XLATE, TSW (41_streaming_synthesizer.md). A FILL is one step
(41 R166, log 14). -/

namespace Sys2Proof.Machine

/-- `(p + 1) mod L` (41 R156): the wrap is the comparison with the cycle length. -/
def wrapSucc (p L : Nat) : Nat := if p + 1 < L then p + 1 else 0

/-- Write pair `i` and advance the carrier phase and the phase of the active tone, given the two samples (41 R152, R153). -/
def emitPair (i : Nat) (vI vQ : Int) (s : State) : Except Fault State :=
  match s.bufWrite (2 * i) (tc8 vI) with
  | .error f => .error f
  | .ok s₁ =>
    match s₁.bufWrite (2 * i + 1) (tc8 vQ) with
    | .error f => .error f
    | .ok s₂ =>
      match s₂.storeCph (wrapSucc s.cph.toNat s.cfg.carrierLen) with
      | .error f => .error f
      | .ok s₃ => s₃.storePhase s.tone (wrapSucc (s.phase s.tone).toNat (s.cfg.toneLen s.tone))

/-- EMIT (41 R152 for Mark, R153 for Space): two table reads at the phases from before the update, two buffer writes, two phases advanced. -/
def emit (i : Nat) (s : State) : Except Fault State :=
  match s.readTab s.tone .I (s.phase s.tone).toNat s.cph.toNat with
  | .error f => .error f
  | .ok vI =>
    match s.readTab s.tone .Q (s.phase s.tone).toNat s.cph.toNat with
    | .error f => .error f
    | .ok vQ => emitPair i vI vQ s

/-- The EMIT loop (41 R151): the next `k` pairs, from pair index `i` on. -/
def emitLoop : Nat → Nat → State → Except Fault State
  | 0, _, s => .ok s
  | k + 1, i, s =>
    match emit i s with
    | .error f => .error f
    | .ok s' => emitLoop k (i + 1) s'

/-- XLATE (41 R158 for Mark active, R159 for Space active): the phase of the inactive tone becomes
`floor(L_inactive · phase_active / L_active)`. -/
def xlate (s : State) : Except Fault State :=
  if s.cfg.toneLen s.tone = 0 then .error .zeroCycleLength
  else s.storePhase s.tone.other
    (s.cfg.toneLen s.tone.other * (s.phase s.tone).toNat / s.cfg.toneLen s.tone)

/-- TSW (41 R162): the counter grows by the batch; once it reaches `R`, the tone flips and the counter falls by `R`, at most once. -/
def tsw (n : Nat) (s : State) : Except Fault State :=
  let sum : Int := s.cnt.toNat + n
  if s.cfg.opR ≤ sum then s.storeToneCnt s.tone.other (sum - s.cfg.opR) else s.storeToneCnt s.tone sum

/-- The body of FILL (41 R151): EMIT `n` times, then XLATE, then TSW. -/
def fillBody (n : Nat) (s : State) : Except Fault State :=
  match emitLoop n 0 s with
  | .error f => .error f
  | .ok s₁ =>
    match xlate s₁ with
    | .error f => .error f
    | .ok s₂ => tsw n s₂

/-- FILL (41 R150): discarded in Faulted, ProtocolViolation(1) in Unbuilt, PreconditionViolation(0) for a short buffer,
PreconditionViolation(1) where the counter would not fit, the body otherwise. Admitted on an untrue `BUFLEN`, it would overrun the real
buffer, which is outside the model (70 R268, 93 U12). -/
def execFill (n : Count) (s : State) : Host.Outcome State Fault Refusal :=
  match s.mode with
  | .faulted => .next s
  | .unbuilt => .next (s.raise .protocolViolation 1)
  | .ready =>
    if s.capacity < 2 * n.toNat then .next (s.raise .preconditionViolation 0)
    else if 2 ^ 32 ≤ s.cnt.toNat + n.toNat then .next (s.raise .preconditionViolation 1)
    else if s.buflenTrue = false then .refused .buflenUntrue
    else toOutcome (fillBody n.toNat s)

end Sys2Proof.Machine
end

