-- ==== Sys2Proof/Machine/Dispatch.lean ====
section
/-! DEFINITION. The dispatch of the five operations of the register port to their meanings, in the order of the opcode table. -/

namespace Sys2Proof.Machine

def exec (i : Instr) (s : State) : Host.Outcome State Fault Refusal :=
  match i with
  | .rdreg r => Sys2Proof.Machine.execRdreg r s
  | .build => Sys2Proof.Machine.execBuild s
  | .fill n => Sys2Proof.Machine.execFill n s
  | .reservedCmd word => Sys2Proof.Machine.execReservedCmd word s
  | .wrreg r v => Sys2Proof.Machine.execWrreg r v s

end Sys2Proof.Machine
end

