-- ==== Sys2Proof/Machine/Step.lean ====
section
/-! DEFINITION. One step: the block performs the host's next move, whole (00 R14, 20 R71). The block has no program and no program counter
(10 R27): what it does next is what the host sends next. -/

namespace Sys2Proof.Machine

/-- The host's next move, performed. With no move pending the block idles, all state kept (60 R225, R238). -/
def step (s : State) : Host.Outcome State Fault Refusal :=
  match s.port with
  | [] => .next s
  | .reset :: rest => .next (s.accept rest).resetBlock
  | .handOver bytes :: rest => .next ((s.accept rest).handOver bytes)
  | .bus w :: rest => exec (decode w) (s.accept rest)

/-- The state in which the host's next move is the transaction whose bits are `w` (those from `nbits` on zero), before whatever it was
about to do. Nothing else changes. Log 1 says how a program comes to run. -/
def State.withFetchWord (s : State) (nbits w : Nat) : State :=
  { s with port := .bus (BitVec.ofNat 37 (w % 2 ^ nbits)) :: s.port }

end Sys2Proof.Machine
end

