-- ==== Sys2Proof/Machine/Assembler.lean ====
section
/-! DEFINITION. The host's text form, its operations and pseudo-operations (30 R99, R100): the reading of a listing, and the moves each
operation stands for. The block never sees a pseudo-operation (30 R100). Where a listing's layout is left open, log 16 says what is read. -/

namespace Sys2Proof.Machine

/-- One operation of a listing (30 R99), or a pseudo-operation (30 R100). -/
inductive AsmOp where
  | reset
  | wrreg (r : Reg) (value : Int)
  | rdreg (r : Reg)
  | build
  | fill (n : Nat)
  | cmdw (word : Nat)
  | config (c lm ls dnum dden a r t0 : Int)
  | fillbuf (bytes : Nat)
  deriving DecidableEq, Repr

/-- A value as the 32 bits stored: a negative `-k` is `2^32 - k` (30 R99). -/
def asmValue (value : Int) : Option Word :=
  if -(2 ^ 31) ≤ value ∧ value < 2 ^ 32 then some (BitVec.ofInt 32 value) else none

/-- The transaction of an operation. -/
def asmBus (i : Instr) : HostMove := .bus (encode i)

/-- `WRREG <register>, <value>`: indices 0 to 14 only (30 R99). -/
def asmWrreg (r : Reg) (value : Int) : Option (List HostMove) :=
  if r = .cmd then none else (asmValue value).map fun v => [asmBus (.wrreg r v)]

/-- `FILL <n>`, `0 ≤ n ≤ 268435455` (30 R99). -/
def asmFill (n : Nat) : Option (List HostMove) :=
  if n < 2 ^ 28 then some [asmBus (.fill (BitVec.ofNat 28 n))] else none

/-- One listing after another; no moves where one of them is no legal listing. -/
def asmSeq : List (Option (List HostMove)) → Option (List HostMove)
  | [] => some []
  | none :: _ => none
  | some ms :: rest => (asmSeq rest).map fun more => ms ++ more

/-- The host's moves for one operation of a listing; none where it is no legal operation. -/
def assemble : AsmOp → Option (List HostMove)
  | .reset => some [.reset]
  | .wrreg r value => asmWrreg r value
  | .rdreg r => some [asmBus (.rdreg r)]
  | .build => some [asmBus .build]
  | .fill n => asmFill n
  | .cmdw word => if word < 2 ^ 32 then some [.bus (busWord 1 15 (BitVec.ofNat 32 word))] else none
  | .config c lm ls dnum dden a r t0 =>
    asmSeq [asmWrreg .cfgC c, asmWrreg .cfgLm lm, asmWrreg .cfgLs ls, asmWrreg .cfgDnum dnum, asmWrreg .cfgDden dden,
      asmWrreg .cfgA a, asmWrreg .cfgR r, asmWrreg .cfgT0 t0]
  | .fillbuf bytes => asmSeq [asmWrreg .buflen bytes, asmFill (bytes / 2)]

/-- A listing as a list of operations. -/
def assembleAll (ops : List AsmOp) : Option (List HostMove) := asmSeq (ops.map assemble)

/-! ## The characters of a listing -/

/-- The name of a register (10 R28). -/
def regName : Reg → List Char
  | .cfgC => ['C', 'F', 'G', '_', 'C']
  | .cfgLm => ['C', 'F', 'G', '_', 'L', 'M']
  | .cfgLs => ['C', 'F', 'G', '_', 'L', 'S']
  | .cfgDnum => ['C', 'F', 'G', '_', 'D', 'N', 'U', 'M']
  | .cfgDden => ['C', 'F', 'G', '_', 'D', 'D', 'E', 'N']
  | .cfgA => ['C', 'F', 'G', '_', 'A']
  | .cfgR => ['C', 'F', 'G', '_', 'R']
  | .cfgT0 => ['C', 'F', 'G', '_', 'T', '0']
  | .buflen => ['B', 'U', 'F', 'L', 'E', 'N']
  | .cph => ['C', 'P', 'H']
  | .mph => ['M', 'P', 'H']
  | .sph => ['S', 'P', 'H']
  | .tone => ['T', 'O', 'N', 'E']
  | .cnt => ['C', 'N', 'T']
  | .status => ['S', 'T', 'A', 'T', 'U', 'S']
  | .cmd => ['C', 'M', 'D']

/-- The words of a list of characters: blanks and commas part them, `word` holds the one being read, last character first. -/
def wordsFrom : List Char → List Char → List (List Char)
  | [], word => if word = [] then [] else [word.reverse]
  | c :: cs, word =>
    if c = ' ' ∨ c = ',' ∨ c = '\t' ∨ c = '\r' then
      if word = [] then wordsFrom cs [] else word.reverse :: wordsFrom cs []
    else wordsFrom cs (c :: word)

/-- The words of a line; `;` starts a comment (30 R99). -/
def lineWords (line : List Char) : List (List Char) := wordsFrom (line.takeWhile fun c => c != ';') []

/-- The value of a digit; letters are hexadecimal digits. -/
def digitValue (c : Char) : Option Nat :=
  if 48 ≤ c.toNat ∧ c.toNat ≤ 57 then some (c.toNat - 48)
  else if 65 ≤ c.toNat ∧ c.toNat ≤ 70 then some (c.toNat - 55)
  else if 97 ≤ c.toNat ∧ c.toNat ≤ 102 then some (c.toNat - 87)
  else none

/-- The digits of a number, read on from the value of those before them. -/
def digitsFrom (base : Nat) : List Char → Nat → Option Nat
  | [], v => some v
  | c :: cs, v =>
    match digitValue c with
    | some d => if d < base then digitsFrom base cs (v * base + d) else none
    | none => none

/-- A number without sign: decimal, or hexadecimal after `0x` (30 R99). -/
def readNat : List Char → Option Nat
  | [] => none
  | ['0', 'x'] => none
  | '0' :: 'x' :: ds => digitsFrom 16 ds 0
  | ds => digitsFrom 10 ds 0

/-- A value: a number without sign, or a negative decimal (30 R99). -/
def readInt : List Char → Option Int
  | ['-'] => none
  | '-' :: ds => (digitsFrom 10 ds 0).map fun k => -(k : Int)
  | ds => (readNat ds).map fun k => (k : Int)

/-- A register by its name or its index (30 R99). -/
def readRegWord (word : List Char) : Option Reg :=
  match Reg.all.find? fun r => regName r == word with
  | some r => some r
  | none =>
    match readNat word with
    | some i => if i < 16 then some (Reg.ofIdx (BitVec.ofNat 4 i)) else none
    | none => none

/-- The operation of a line's words; none where they are no operation. What stands after the `->` of a read is the value the listing
shows, and no part of the operation. -/
def readOp : List (List Char) → Option AsmOp
  | [['R', 'E', 'S', 'E', 'T']] => some .reset
  | [['W', 'R', 'R', 'E', 'G'], r, v] =>
    match readRegWord r, readInt v with
    | some r, some v => some (.wrreg r v)
    | _, _ => none
  | [['R', 'D', 'R', 'E', 'G'], r] => (readRegWord r).map .rdreg
  | [['R', 'D', 'R', 'E', 'G'], r, ['-', '>'], _] => (readRegWord r).map .rdreg
  | [['B', 'U', 'I', 'L', 'D']] => some .build
  | [['F', 'I', 'L', 'L'], n] => (readNat n).map .fill
  | [['C', 'M', 'D', 'W'], w] => (readNat w).map .cmdw
  | [['C', 'O', 'N', 'F', 'I', 'G'], c, lm, ls, dnum, dden, a, r, t0] =>
    match readInt c, readInt lm, readInt ls, readInt dnum, readInt dden, readInt a, readInt r, readInt t0 with
    | some c, some lm, some ls, some dnum, some dden, some a, some r, some t0 => some (.config c lm ls dnum dden a r t0)
    | _, _, _, _, _, _, _, _ => none
  | [['F', 'I', 'L', 'L', 'B', 'U', 'F'], n] => (readNat n).map .fillbuf
  | _ => none

/-- The moves of one line: none of them where the line is empty or only a comment; no answer where it is no operation. -/
def assembleLine (line : List Char) : Option (List HostMove) :=
  match lineWords line with
  | [] => some []
  | ws =>
    match readOp ws with
    | some op => assemble op
    | none => none

/-- The lines of a text, `line` holding the one being read, last character first. -/
def linesFrom : List Char → List Char → List (List Char)
  | [], line => [line.reverse]
  | c :: cs, line => if c = '\n' then line.reverse :: linesFrom cs [] else linesFrom cs (c :: line)

/-- The moves of a listing, one operation per line (30 R99). -/
def assembleText (text : List Char) : Option (List HostMove) := asmSeq ((linesFrom text []).map assembleLine)

end Sys2Proof.Machine
end

