-- ==== Sys2Proof/Safety.lean ====
section
/-! DEFINITION. The terms claims are stated in: the invariant of the reachable states, what a successful run is, when a FILL is admitted,
and the real-number form of the table entries (40 R124), which the fixed-point evaluation of Machine/Entry.lean is held to. -/

namespace Sys2Proof.Machine

/-! ## Invariants -/

/-- The fault records the block can produce (60 R221 to R223). -/
def recordLegal : Err → Byte → Bool
  | .none, info => info == 0
  | .configurationError, info => info.toNat ≤ 6
  | .preconditionViolation, info => info.toNat ≤ 1
  | .protocolViolation, info => info.toNat ≤ 3

/-- What holds of the five registers of SynthesisState while the tables hold no value: their reset values (10 R38, R44). -/
def State.AtRest (s : State) : Prop :=
  s.cph = 0 ∧ s.mph = 0 ∧ s.sph = 0 ∧ s.tone = .space ∧ s.cnt = 0

/-- What holds once tables are held: the configuration is the validated one, the tables are those of 40 R124 for it, and every phase
is in its range (10 R26). -/
def State.InRange (s : State) (t : Tables) : Prop :=
  s.cfg.firstInvalid s.caps = none ∧ t = s.cfg.tables ∧ s.cph.toNat < s.cfg.carrierLen
    ∧ s.mph.toNat < s.cfg.toneLen .mark ∧ s.sph.toNat < s.cfg.toneLen .space

/-- What holds between any two moves of the host, in every state a run reaches. -/
structure State.Inv (s : State) : Prop where
  /-- The instance has capacities it can be made with (00 R7). -/
  capsLegal : s.caps.Legal
  /-- The buffers are in canonical form. -/
  bufCanonical : s.buf.wf = true
  takenCanonical : ∀ m ∈ s.taken, Memory.wf m = true
  /-- Nothing is known to stand beyond the real end of the buffer (70 R268). -/
  bufInside : ∀ size, s.bufSize = some size → ∀ off, size ≤ off → s.buf.read off = none
  /-- `ERR ≠ 0` exactly when `MODE = Faulted` (10 R36). -/
  errIffFaulted : s.err ≠ .none ↔ s.mode = .faulted
  /-- The fault record is one of those of 60 R221 to R223. -/
  record : recordLegal s.err s.errInfo = true
  /-- The tables hold no value in Unbuilt and hold one in Ready (10 R38, R39). -/
  unbuiltNoTables : s.mode = .unbuilt → s.tables = none
  readyTables : s.mode = .ready → s.tables ≠ none
  atRest : s.tables = none → s.AtRest
  inRange : ∀ t, s.tables = some t → s.InRange t

/-- A run that ends here is a successful one (60 R231, 70 R277). -/
def State.successful (s : State) : Bool := s.mode != .faulted

/-- A FILL of `n` pairs passes the tests of 41 R150, and its launch premise holds (70 R268). -/
def State.Admits (s : State) (n : Nat) : Prop :=
  s.mode = .ready ∧ 2 * n ≤ s.capacity ∧ s.cnt.toNat + n < 2 ^ 32 ∧ s.buflenTrue = true

/-- The seven tests of 40 R122 on an instance of given capacities, by the index of the register tested. -/
def CfgRegs.passes (g : CfgRegs) (k : Capacities) : Nat → Prop
  | 0 => 1 ≤ sext32 g.c ∧ sext32 g.c ≤ k.cMax
  | 1 => 1 ≤ sext32 g.lm ∧ sext32 g.lm ≤ k.lMax
  | 2 => 1 ≤ sext32 g.ls ∧ sext32 g.ls ≤ k.lMax
  | 3 => 1 ≤ sext32 g.dnum
  | 4 => 1 ≤ sext32 g.dden
  | 5 => 1 ≤ sext32 g.a ∧ sext32 g.a ≤ 127
  | 6 => 1 ≤ sext32 g.r
  | _ => True

/-- A configuration that BUILD accepts on an instance of given capacities. -/
def CfgRegs.Legal (g : CfgRegs) (k : Capacities) : Prop := ∀ i < 7, g.passes k i

/-- FILLs one after another, with the number of tone flips among them; none where one of them does not answer a next state. -/
def runFills : List Count → State → Option (State × Nat)
  | [], s => some (s, 0)
  | n :: ns, s =>
    match exec (.fill n) s with
    | .next t => (runFills ns t).map fun p => (p.1, p.2 + if t.tone = s.tone then 0 else 1)
    | .fault _ => none
    | .refused _ => none

/-- The pairs a list of FILLs emits in total. -/
def totalPairs (ns : List Count) : Nat := (ns.map BitVec.toNat).sum

/-! ## The real-number form of the table entries -/

/-- `round_haz` (00 R12). -/
noncomputable def roundHaz (x : ℝ) : ℤ := (SignType.sign x : ℤ) * ⌊|x| + 1 / 2⌋

/-- `x(t, s, c)` of 40 R124. -/
noncomputable def entryArg (C L dnum dden s c : Nat) : ℝ :=
  c * (2 * Real.pi) / C - (dnum / dden) * Real.cos (s * (2 * Real.pi) / L)

/-- The unrounded value of 40 R124: `A · sin x` for I, `A · cos x` for Q. -/
noncomputable def entryExact (isQ : Bool) (C L dnum dden A s c : Nat) : ℝ :=
  A * (if isQ then Real.cos (entryArg C L dnum dden s c) else Real.sin (entryArg C L dnum dden s c))

/-- The entry of 40 R124, in exact real arithmetic (40 R128). -/
noncomputable def entryReal (isQ : Bool) (C L dnum dden A s c : Nat) : ℤ :=
  sat8 (roundHaz (entryExact isQ C L dnum dden A s c))

/-- The same for the configuration registers. -/
noncomputable def CfgRegs.entryReal (g : CfgRegs) (t : Tone) (ch : Channel) (s c : Nat) : ℤ :=
  Sys2Proof.Machine.entryReal (ch == .Q) g.carrierLen (g.toneLen t) g.opDnum.toNat g.opDden.toNat g.opA.toNat s c

end Sys2Proof.Machine
end

