-- ==== Sys2Proof/Certificates/Slice0/Obligations.lean ====
section
/-! DEFINITION. The statements for the provers. Each formalises what a numbered rule of the spec says the block does; the docstring cites the
rule, and names the log entry where a clause rests on a choice of the model. -/

open Sys2Proof Sys2Proof.Machine

/-! ## Encoding -/

/-- 30 R92 to R96: every well-formed operation, with every operand, is decoded from its own word. -/
def Obligations.DecodeOfEncodeIsIdentity : Prop :=
  ∀ i : Instr, i.WellFormed → decode (encode i) = i

/-- 30 R94: every word decodes to an operation, and a write's word is the word of that operation; of a read's word the ignored data bits
are lost (the model sends them as 0, log 15). -/
def Obligations.EncodeOfDecodeIsIdentity : Prop :=
  ∀ w : BusWord, (decode w).WellFormed
    ∧ (w.getLsbD 36 = true → encode (decode w) = w)
    ∧ (w.getLsbD 36 = false → encode (decode w) = w &&& 0x0F00000000#37)

/-- 30 R96: the five rows of the opcode table as mask and match, in priority order, and the two command words. -/
def Obligations.DecodeFollowsOpcodeTable : Prop :=
  (∀ w : BusWord,
    (w &&& 0x1000000000#37 = 0x0000000000#37 → ∃ r, r.idx = w.extractLsb' 32 4 ∧ decode w = .rdreg r)
    ∧ (w &&& 0x1FFFFFFFFF#37 = 0x1F10000000#37 → decode w = .build)
    ∧ (w &&& 0x1FF0000000#37 = 0x1F20000000#37 → decode w = .fill (w.extractLsb' 0 28))
    ∧ (w &&& 0x1F00000000#37 = 0x1F00000000#37 → w &&& 0x1FFFFFFFFF#37 ≠ 0x1F10000000#37 →
        w &&& 0x1FF0000000#37 ≠ 0x1F20000000#37 → decode w = .reservedCmd (w.extractLsb' 0 32))
    ∧ (w &&& 0x1000000000#37 = 0x1000000000#37 → w &&& 0x1F00000000#37 ≠ 0x1F00000000#37 →
        ∃ r, r.idx = w.extractLsb' 32 4 ∧ r.idx.toNat ≤ 14 ∧ decode w = .wrreg r (w.extractLsb' 0 32)))
  ∧ decodeCmd 0x10000000#32 = .build
  ∧ ∀ n : Count, decodeCmd (BitVec.ofNat 32 (0x20000000 + n.toNat)) = .fill n

/-- 95 section 3.8: words written out from the encoding. -/
def Obligations.WrittenOutWordsDecode : Prop :=
  decode 0x0F00000000#37 = .rdreg .cmd ∧ decode 0x1F10000000#37 = .build ∧ decode 0x1F20001A0A#37 = .fill 6666#28
    ∧ decode 0x1F10000001#37 = .reservedCmd 0x10000001#32 ∧ decode 0x1800040000#37 = .wrreg .buflen 262144#32

/-- 30 R99, R100: the pseudo-operations and the moves they stand for, for values the listing may hold. -/
def Obligations.PseudoOperationsExpand : Prop :=
  (∀ bytes : Nat, bytes / 2 < 2 ^ 28 →
    assemble (.fillbuf bytes) = some [.bus (encode (.wrreg .buflen (BitVec.ofNat 32 bytes))),
      .bus (encode (.fill (BitVec.ofNat 28 (bytes / 2))))])
  ∧ (∀ c lm ls dnum dden a r t0 : BitVec 32,
    assemble (.config c.toInt lm.toInt ls.toInt dnum.toInt dden.toInt a.toInt r.toInt t0.toInt)
      = some [.bus (encode (.wrreg .cfgC c)), .bus (encode (.wrreg .cfgLm lm)), .bus (encode (.wrreg .cfgLs ls)),
          .bus (encode (.wrreg .cfgDnum dnum)), .bus (encode (.wrreg .cfgDden dden)), .bus (encode (.wrreg .cfgA a)),
          .bus (encode (.wrreg .cfgR r)), .bus (encode (.wrreg .cfgT0 t0))])

/-- 30 R99: what each operation of a listing stands for, that a negative value `-k` is stored as `2^32 - k`, and that a register is known by
its name and by its index in decimal. The reading of the characters is the model's where the rule leaves the layout open (log 16). -/
def Obligations.ListingOperationsStandForMoves : Prop :=
  assemble .reset = some [.reset] ∧ assemble .build = some [.bus (encode .build)]
  ∧ (∀ r, assemble (.rdreg r) = some [.bus (encode (.rdreg r))])
  ∧ (∀ (r : Reg) (v : Word), r ≠ .cmd → assemble (.wrreg r v.toNat) = some [.bus (encode (.wrreg r v))])
  ∧ (∀ (r : Reg) (k : Nat), r ≠ .cmd → 0 < k → k ≤ 2 ^ 31 →
      assemble (.wrreg r (-(k : Int))) = some [.bus (encode (.wrreg r (BitVec.ofNat 32 (2 ^ 32 - k))))])
  ∧ (∀ v, assemble (.wrreg .cmd v) = none)
  ∧ (∀ n : Nat, assemble (.fill n) = if n ≤ 268435455 then some [.bus (encode (.fill (BitVec.ofNat 28 n)))] else none)
  ∧ assemble (.cmdw 0x10000000) = assemble .build
  ∧ (∀ n : Nat, n ≤ 268435455 → assemble (.cmdw (0x20000000 + n)) = assemble (.fill n))
  ∧ (∀ w : Word, ∃ b, assemble (.cmdw w.toNat) = some [.bus b] ∧ decode b = decodeCmd w)
  ∧ (∀ r, readRegWord (regName r) = some r)
  ∧ ∀ r : Reg, readRegWord (Nat.toDigits 10 r.idx.toNat) = some r

/-! ## Steps and the host's moves -/

/-- 00 R14, 20 R71 (and log 1, the port): a transaction is performed whole, as its decoded operation, on the state without that move. -/
def Obligations.StepRunsDecodedOperation : Prop :=
  (∀ (s : State) (w : BusWord) (rest : List HostMove), s.port = .bus w :: rest →
    step s = exec (decode w) { s with port := rest, answer := none })
  ∧ (∀ (s : State) (w : Nat), w < 2 ^ 37 →
    decodeTableWord 40 w = some (decode (BitVec.ofNat 37 w))
      ∧ step (s.withFetchWord 40 w) = exec (decode (BitVec.ofNat 37 w)) { s with answer := none })

/-- 60 R225, R238 (the core never acts on its own), 20 R62, 70 R268 and R277 (buffers; logs 1, 5 and 6): no move, no change; a buffer handed
over, whose real size is then known. -/
def Obligations.IdleAndBufferMoves : Prop :=
  (∀ s : State, s.port = [] → step s = .next s)
  ∧ (∀ (s : State) (bytes : List Byte) (rest : List HostMove), s.port = .handOver bytes :: rest →
    ∃ t, step s = .next t ∧ (∀ i, t.buf.read i = bytes[i]?) ∧ t.taken = s.taken ++ [s.buf]
      ∧ t = { s with buf := t.buf, bufSize := some bytes.length, taken := t.taken, port := rest, answer := none })

/-- 70 R260, 10 R44: RESET in every mode; nothing else leaves Faulted; nothing else discards or replaces tables that are held, be it in Ready
or in Faulted. That RESET leaves the buffers, their size and the later moves, and clears the answer of the move before, is the model's
(logs 1, 3, 5, 6 and 11). -/
def Obligations.ResetMoveRestoresResetState : Prop :=
  (∀ (s : State) (rest : List HostMove), s.port = .reset :: rest →
    ∃ t, step s = .next t ∧ (∀ r, t.readReg r = 0) ∧ t.mode = .unbuilt ∧ t.tone = .space ∧ t.err = .none ∧ t.errInfo = 0
      ∧ t.tables = none ∧ t.faultLevel = false ∧ t.buf = s.buf ∧ t.bufSize = s.bufSize ∧ t.taken = s.taken ∧ t.port = rest
      ∧ t.answer = none ∧ t.caps = s.caps)
  ∧ (∀ s t : State, s.mode = .faulted → step s = .next t → t.mode ≠ .faulted → ∃ rest, s.port = .reset :: rest)
  ∧ (∀ s t : State, s.mode ≠ .unbuilt → step s = .next t → t.tables ≠ s.tables → ∃ rest, s.port = .reset :: rest)

/-- 10 R44: the reset state of an instance of any capacities. The empty port, the buffer of which nothing is known and the reference
capacities of `State.reset` are the model's (logs 1, 4, 5, 6 and 7). -/
def Obligations.ResetStateIsAllZero : Prop :=
  (∀ k : Capacities, (∀ r, (State.resetOf k).readReg r = 0) ∧ (State.resetOf k).mode = .unbuilt ∧ (State.resetOf k).tone = .space
    ∧ (State.resetOf k).tables = none ∧ (State.resetOf k).port = [] ∧ (State.resetOf k).buf = [] ∧ (State.resetOf k).bufSize = none
    ∧ (State.resetOf k).taken = [] ∧ (State.resetOf k).caps = k)
  ∧ State.reset = State.resetOf ⟨16, 8192⟩

/-! ## Registers and status -/

/-- 42 R200: the value each register reads as, in every mode, with no other effect. -/
def Obligations.RdregReturnsRegister : Prop :=
  ∀ (s : State) (r : Reg), ∃ v : Word, exec (.rdreg r) s = .next { s with answer := some v }
    ∧ match r with
      | .cfgC => v = s.cfg.c
      | .cfgLm => v = s.cfg.lm
      | .cfgLs => v = s.cfg.ls
      | .cfgDnum => v = s.cfg.dnum
      | .cfgDden => v = s.cfg.dden
      | .cfgA => v = s.cfg.a
      | .cfgR => v = s.cfg.r
      | .cfgT0 => v = s.cfg.t0
      | .buflen => v = s.buflen
      | .cph => v = s.cph
      | .mph => v = s.mph
      | .sph => v = s.sph
      | .tone => v.toNat = if s.tone = .mark then 1 else 0
      | .cnt => v = s.cnt
      | .status => v.toNat = s.errInfo.toNat * 256 + s.err.code * 16 + s.mode.code
      | .cmd => v = 0

/-- 10 R21 to R23, 92 open parameters: the width of a phase register is `ceil(log2)` of its capacity, 4 and 13 for the reference values, and
what is read of it has zeros above that width. (Capacities above 2^32 need no wider register, log 7.) -/
def Obligations.PhaseRegistersFitTheirWidths : Prop :=
  (∀ n, 2 ≤ n → n ≤ 2 ^ 32 → 2 ^ (phaseBits n - 1) < n ∧ n ≤ 2 ^ phaseBits n)
  ∧ Capacities.reference.carrierBits = 4 ∧ Capacities.reference.toneBits = 13
  ∧ ∀ s : State, s.Inv → ∀ i,
    (phaseBits s.caps.cMax ≤ i → (s.readReg .cph).getLsbD i = false)
    ∧ (phaseBits s.caps.lMax ≤ i → (s.readReg .mph).getLsbD i = false ∧ (s.readReg .sph).getLsbD i = false)

/-- 10 R36, 60 R225: the fields of the STATUS word, and the fault level. -/
def Obligations.StatusWordFields : Prop :=
  ∀ s : State, (s.statusWord.extractLsb' 0 2).toNat = s.mode.code ∧ s.statusWord.extractLsb' 2 2 = 0
    ∧ (s.statusWord.extractLsb' 4 4).toNat = s.err.code ∧ s.statusWord.extractLsb' 8 8 = s.errInfo
    ∧ s.statusWord.extractLsb' 16 16 = 0
    ∧ (s.faultLevel = true ↔ s.statusWord.extractLsb' 0 2 = 2)

/-- 95 section 3.9 with 60 R221 to R223: the fifteen values of STATUS. -/
def Obligations.StatusWordIsOneOfFifteen : Prop :=
  ∀ s : State, s.Inv → s.statusWord ∈ [0x00000000#32, 0x00000001, 0x00000012, 0x00000112, 0x00000212, 0x00000312, 0x00000412, 0x00000512,
    0x00000612, 0x00000022, 0x00000122, 0x00000032, 0x00000132, 0x00000232, 0x00000332]

/-- 60 R228: what fault entry writes, the STATUS word it leaves, and the `fault` level. -/
def Obligations.FaultEntryWritesStatusOnly : Prop :=
  ∀ (s : State) (k : Err) (info : Byte),
    s.raise k info = { s with err := k, errInfo := info, mode := .faulted }
      ∧ (s.raise k info).statusWord
          = BitVec.ofNat 32 (info.toNat <<< 8) ||| BitVec.ofNat 32 (k.code <<< 4) ||| 2#32
      ∧ (s.raise k info).faultLevel = true

/-- 42 R201: a write of a configuration register in Unbuilt; different registers are independent, a later write replaces an earlier one. -/
def Obligations.WrregStoresConfiguration : Prop :=
  ∀ (s : State) (r : Reg) (v : Word), s.mode = .unbuilt → r.idx.toNat ≤ 7 →
    ∃ t, exec (.wrreg r v) s = .next t ∧ t.readReg r = v ∧ (∀ q, q ≠ r → t.readReg q = s.readReg q)
      ∧ t = { s with cfg := t.cfg }
      ∧ (∀ q u, q.idx.toNat ≤ 7 → q ≠ r →
          ∃ t₁ t₂, exec (.wrreg q u) t = .next t₁ ∧ exec (.wrreg q u) s = .next t₂ ∧ exec (.wrreg r v) t₂ = .next t₁)
      ∧ (∀ u, ∃ t₁, exec (.wrreg r u) t = .next t₁ ∧ exec (.wrreg r u) s = .next t₁)

/-- 42 R202: a write of BUFLEN in Unbuilt or Ready. -/
def Obligations.WrregStoresBuflen : Prop :=
  ∀ (s : State) (v : Word), s.mode = .unbuilt ∨ s.mode = .ready →
    exec (.wrreg .buflen v) s = .next { s with buflen := v }

/-- 42 R203: the refused writes. -/
def Obligations.WrregRefusedByClassAndMode : Prop :=
  ∀ (s : State) (r : Reg) (v : Word),
    (9 ≤ r.idx.toNat ∧ r.idx.toNat ≤ 14 ∧ (s.mode = .unbuilt ∨ s.mode = .ready)) ∨ (r.idx.toNat ≤ 7 ∧ s.mode = .ready) →
    exec (.wrreg r v) s = .next { s with err := .protocolViolation, errInfo := 3, mode := .faulted }
      ∧ ∀ t, exec (.wrreg r v) s = .next t → t.statusWord = 0x00000332#32

/-- 30 R97: exactly which writes to `CMD` are reserved commands, and what each does in Unbuilt and Ready. -/
def Obligations.ReservedCommandRaises : Prop :=
  (∀ word : Word, decode (busWord 1 15 word) = .reservedCmd word
    ↔ (word.extractLsb' 28 4 ≠ 1 ∧ word.extractLsb' 28 4 ≠ 2) ∨ (word.extractLsb' 28 4 = 1 ∧ word.extractLsb' 0 28 ≠ 0))
  ∧ ∀ (s : State) (word : Word), s.mode = .unbuilt ∨ s.mode = .ready →
    exec (.reservedCmd word) s = .next { s with err := .protocolViolation, errInfo := 0, mode := .faulted }

/-- 60 R231: in Faulted, reads work and every write and command is discarded. -/
def Obligations.FaultedDiscardsWritesAndCommands : Prop :=
  ∀ s : State, s.mode = .faulted →
    (∀ i : Instr, i.WellFormed → (∀ r, i ≠ .rdreg r) → exec i s = .next s)
      ∧ ∀ r, exec (.rdreg r) s = .next { s with answer := some (s.readReg r) }

/-! ## BUILD -/

/-- 40 R127: the state after a successful BUILD. -/
def Obligations.BuildLoadsTablesAndZeroPhases : Prop :=
  ∀ s : State, s.mode = .unbuilt → s.err = .none → s.errInfo = 0 → s.cfg.Legal s.caps →
    ∃ t, exec .build s = .next t
      ∧ t = { s with tables := t.tables, cph := 0, mph := 0, sph := 0, cnt := 0, tone := if s.cfg.t0.getLsbD 0 then .mark else .space,
                     mode := .ready }
      ∧ t.statusWord = 0x00000001#32 ∧ t.tables ≠ none

/-- 40 R124, R130: every entry in range is populated with the entry function's value, and there is no other. -/
def Obligations.BuildPopulatesEveryEntry : Prop :=
  ∀ s : State, s.mode = .unbuilt → s.cfg.Legal s.caps →
    ∃ t tab, exec .build s = .next t ∧ t.tables = some tab ∧ ∀ (tone : Tone) (ch : Channel) (i c : Nat),
      tab.at tone ch i c
        = if i < s.cfg.toneLen tone ∧ c < s.cfg.carrierLen then some (tc8 (s.cfg.entry tone ch i c)) else none

/-- 40 R122, R123, 60 R221: the first failing test, in register order, is the one reported, and nothing else happens. -/
def Obligations.BuildReportsFirstFailingTest : Prop :=
  ∀ (s : State) (k : Nat), s.mode = .unbuilt → k < 7 → (∀ j < k, s.cfg.passes s.caps j) → ¬s.cfg.passes s.caps k →
    exec .build s = .next { s with err := .configurationError, errInfo := BitVec.ofNat 8 k, mode := .faulted }

/-- 40 R121: a second BUILD is refused, every other register still reads as before, and no FILL runs any more; in Faulted a BUILD is
discarded. -/
def Obligations.SecondBuildRefused : Prop :=
  (∀ s : State, s.mode = .ready →
    ∃ t, exec .build s = .next t ∧ t = { s with err := .protocolViolation, errInfo := 2, mode := .faulted }
      ∧ (∀ r, r ≠ .status → exec (.rdreg r) t = .next { t with answer := some (s.readReg r) })
      ∧ ∀ n, exec (.fill n) t = .next t)
  ∧ ∀ s : State, s.mode = .faulted → exec .build s = .next s

/-- 40 R126: the amplitude bound, and that -128 is never stored. -/
def Obligations.EntryWithinAmplitude : Prop :=
  ∀ (g : CfgRegs) (k : Capacities) (tone : Tone) (ch : Channel) (s c : Nat), g.Legal k →
    |g.entry tone ch s c| ≤ g.opA ∧ (tc8 (g.entry tone ch s c)).toInt = g.entry tone ch s c
      ∧ tc8 (g.entry tone ch s c) ≠ 0x80#8

/-- 40 R124, R128: every entry of every legal configuration is the exact-real value, rounded once, ties away from zero. (How it is evaluated is
the model's, log 8.) -/
def Obligations.EntryIsExactReal : Prop :=
  ∀ (g : CfgRegs) (k : Capacities) (tone : Tone) (ch : Channel) (s c : Nat), g.Legal k → s < g.toneLen tone → c < g.carrierLen →
    g.entry tone ch s c = g.entryReal tone ch s c

/-- 40 R129: the symmetries of the tables, for any legal configuration. -/
def Obligations.EntriesAreSymmetric : Prop :=
  ∀ (g : CfgRegs) (k : Capacities) (tone : Tone) (s c : Nat), g.Legal k → s < g.toneLen tone → c < g.carrierLen →
    (∀ ch, 1 ≤ s → g.entry tone ch s c = g.entry tone ch (g.toneLen tone - s) c)
    ∧ (∀ ch, g.entry .mark ch 0 c = g.entry .space ch 0 c)
    ∧ (∀ ch, 2 ∣ g.carrierLen → g.entry tone ch s ((c + g.carrierLen / 2) % g.carrierLen) = -g.entry tone ch s c)
    ∧ (4 ∣ g.carrierLen → g.entry tone .I s ((c + g.carrierLen / 4) % g.carrierLen) = g.entry tone .Q s c)

/-- 40 R129: the unit circle, for any legal configuration. -/
def Obligations.EntriesOnUnitCircle : Prop :=
  ∀ (g : CfgRegs) (k : Capacities) (tone : Tone) (s c : Nat), g.Legal k → s < g.toneLen tone → c < g.carrierLen →
    |((g.entry tone .I s c : ℝ) ^ 2 + (g.entry tone .Q s c : ℝ) ^ 2 - (g.opA : ℝ) ^ 2)| ≤ g.opA * Real.sqrt 2 + 1 / 2

/-- 10 R31: two pairs `Dnum`, `Dden` with the same ratio give the same tables. -/
def Obligations.SameRatioGivesSameTables : Prop :=
  ∀ (s s' : State) (dnum dden : Word), s.mode = .unbuilt → s.cfg.Legal s.caps →
    s' = { s with cfg := { s.cfg with dnum := dnum, dden := dden } } → s'.cfg.Legal s'.caps →
    s.cfg.opDnum * s'.cfg.opDden = s'.cfg.opDnum * s.cfg.opDden →
    ∃ t t', exec .build s = .next t ∧ exec .build s' = .next t' ∧ t.tables ≠ none ∧ t.tables = t'.tables

/-! ## The micro-operations of FILL -/

/-- 41 R152, R153: one EMIT, for either tone. -/
def Obligations.EmitWritesPairAndAdvances : Prop :=
  ∀ (s : State) (tab : Tables) (i : Nat), s.tables = some tab → s.InRange tab → 2 * i + 1 < s.capacity →
    ∃ bI bQ t, tab.at s.tone .I (s.phase s.tone).toNat s.cph.toNat = some bI
      ∧ tab.at s.tone .Q (s.phase s.tone).toNat s.cph.toNat = some bQ
      ∧ emit i s = .ok t
      ∧ t.buf.read (2 * i) = some bI ∧ t.buf.read (2 * i + 1) = some bQ
      ∧ (∀ off, off ≠ 2 * i → off ≠ 2 * i + 1 → t.buf.read off = s.buf.read off)
      ∧ t.cph.toNat = (s.cph.toNat + 1) % s.cfg.carrierLen
      ∧ (s.tone = .mark → t.mph.toNat = (s.mph.toNat + 1) % s.cfg.toneLen .mark ∧ t.sph = s.sph)
      ∧ (s.tone = .space → t.sph.toNat = (s.sph.toNat + 1) % s.cfg.toneLen .space ∧ t.mph = s.mph)
      ∧ t = { s with buf := t.buf, cph := t.cph, mph := t.mph, sph := t.sph }

/-- 41 R158, R159, R160: XLATE, for either tone; the quotient is in range and within one sample of proportion. -/
def Obligations.XlateTranslatesInactivePhase : Prop :=
  ∀ (s : State) (tab : Tables), s.InRange tab →
    (s.tone = .mark → ∃ t, xlate s = .ok t ∧ t = { s with sph := t.sph }
      ∧ t.sph.toNat = s.cfg.toneLen .space * s.mph.toNat / s.cfg.toneLen .mark ∧ t.sph.toNat < s.cfg.toneLen .space
      ∧ t.sph.toNat * s.cfg.toneLen .mark ≤ s.mph.toNat * s.cfg.toneLen .space
      ∧ s.mph.toNat * s.cfg.toneLen .space < (t.sph.toNat + 1) * s.cfg.toneLen .mark
      ∧ xlate t = .ok t)
    ∧ (s.tone = .space → ∃ t, xlate s = .ok t ∧ t = { s with mph := t.mph }
      ∧ t.mph.toNat = s.cfg.toneLen .mark * s.sph.toNat / s.cfg.toneLen .space ∧ t.mph.toNat < s.cfg.toneLen .mark
      ∧ t.mph.toNat * s.cfg.toneLen .space ≤ s.sph.toNat * s.cfg.toneLen .mark
      ∧ s.sph.toNat * s.cfg.toneLen .mark < (t.mph.toNat + 1) * s.cfg.toneLen .space
      ∧ xlate t = .ok t)

/-- 41 R162: TSW. -/
def Obligations.TswFlipsAtThreshold : Prop :=
  ∀ (s : State) (n : Nat), 1 ≤ s.cfg.opR → s.cnt.toNat + n < 2 ^ 32 →
    ∃ t, tsw n s = .ok t ∧ t = { s with tone := t.tone, cnt := t.cnt }
      ∧ (s.cfg.opR ≤ (s.cnt.toNat + n : Nat) → t.tone = s.tone.other ∧ (t.cnt.toNat : Int) = (s.cnt.toNat + n : Nat) - s.cfg.opR)
      ∧ ((s.cnt.toNat + n : Nat) < s.cfg.opR → t.tone = s.tone ∧ t.cnt.toNat = s.cnt.toNat + n)

/-! ## FILL -/

/-- 41 R150, R151: FILL is discarded in Faulted; its three refusals, in their order, change nothing but STATUS; admitted, and its launch
premise met (70 R268), it runs its body: the EMITs of the pairs 0 to n - 1, then XLATE, then TSW. -/
def Obligations.FillAdmissionTests : Prop :=
  (∀ (s : State) (n : Count),
    (s.mode = .faulted → exec (.fill n) s = .next s)
    ∧ (s.mode = .unbuilt → exec (.fill n) s = .next { s with err := .protocolViolation, errInfo := 1, mode := .faulted })
    ∧ (s.mode = .ready → s.buflen.toNat < 2 * n.toNat →
        exec (.fill n) s = .next { s with err := .preconditionViolation, errInfo := 0, mode := .faulted })
    ∧ (s.mode = .ready → 2 * n.toNat ≤ s.buflen.toNat → 2 ^ 32 ≤ s.cnt.toNat + n.toNat →
        exec (.fill n) s = .next { s with err := .preconditionViolation, errInfo := 1, mode := .faulted })
    ∧ (s.mode = .ready → 2 * n.toNat ≤ s.buflen.toNat → s.cnt.toNat + n.toNat < 2 ^ 32 → s.buflenTrue = true →
        exec (.fill n) s = toOutcome (fillBody n.toNat s)))
  ∧ ∀ (s t : State) (n : Nat), fillBody n s = .ok t ↔ ∃ s₁ s₂, emitLoop n 0 s = .ok s₁ ∧ xlate s₁ = .ok s₂ ∧ tsw n s₂ = .ok t

/-- 70 R268, 93 U12 (and log 6): `BUFLEN` at most the real size of the buffer is the launch premise of every FILL; a FILL that is admitted
without it is outside the model and refused by name, and nothing else is. -/
def Obligations.FillNeedsTrueBuflen : Prop :=
  (∀ s : State, s.buflenTrue = true ↔ ∀ size, s.bufSize = some size → s.buflen.toNat ≤ size)
  ∧ (∀ (s : State) (n : Count), s.mode = .ready → 2 * n.toNat ≤ s.buflen.toNat → s.cnt.toNat + n.toNat < 2 ^ 32 →
      s.buflenTrue = false → exec (.fill n) s = .refused .buflenUntrue)
  ∧ ∀ (s : State) (i : Instr), exec i s = .refused .buflenUntrue →
      ∃ n : Count, i = .fill n ∧ s.mode = .ready ∧ 2 * n.toNat ≤ s.buflen.toNat ∧ s.cnt.toNat + n.toNat < 2 ^ 32
        ∧ s.buflenTrue = false

/-- 41 R157 (with 20 R63, R64): the closed form of a batch. -/
def Obligations.FillEmitsClosedForm : Prop :=
  ∀ (s : State) (n : Count) (tab : Tables), s.Inv → s.Admits n.toNat → s.tables = some tab →
    ∃ t, exec (.fill n) s = .next t
      ∧ (∀ i < n.toNat, ∃ bI bQ,
          tab.at s.tone .I (((s.phase s.tone).toNat + i) % s.cfg.toneLen s.tone) ((s.cph.toNat + i) % s.cfg.carrierLen) = some bI
          ∧ tab.at s.tone .Q (((s.phase s.tone).toNat + i) % s.cfg.toneLen s.tone) ((s.cph.toNat + i) % s.cfg.carrierLen) = some bQ
          ∧ t.buf.read (2 * i) = some (tc8 bI.toInt) ∧ t.buf.read (2 * i + 1) = some (tc8 bQ.toInt))
      ∧ t.cph.toNat = (s.cph.toNat + n.toNat) % s.cfg.carrierLen
      ∧ (t.phase s.tone).toNat = ((s.phase s.tone).toNat + n.toNat) % s.cfg.toneLen s.tone

/-- 20 R69: a FILL writes the offsets below 2n and no other, all of them inside the real buffer (70 R268, log 6), and nothing when it faults or
is discarded. -/
def Obligations.FillWritesOnlyItsPairs : Prop :=
  (∀ (s : State) (n : Count), s.Inv → s.Admits n.toNat →
    ∃ t, exec (.fill n) s = .next t
      ∧ (∀ off, 2 * n.toNat ≤ off → t.buf.read off = s.buf.read off)
      ∧ (∀ off, off < 2 * n.toNat → (t.buf.read off).isSome)
      ∧ (∀ size, s.bufSize = some size → 2 * n.toNat ≤ size)
      ∧ t.buf.wf = true)
  ∧ (∀ (s t : State) (n : Count), ¬s.Admits n.toNat → exec (.fill n) s = .next t → t.buf = s.buf)

/-- 10 R26, 41 R158, R159: after a FILL the phase of the tone that was not active is the translation of the phase of the one that was. -/
def Obligations.FillLeavesPhasesConsistent : Prop :=
  ∀ (s : State) (n : Count), s.Inv → s.Admits n.toNat →
    ∃ t, exec (.fill n) s = .next t
      ∧ (s.tone = .mark → t.sph.toNat = s.cfg.toneLen .space * t.mph.toNat / s.cfg.toneLen .mark)
      ∧ (s.tone = .space → t.mph.toNat = s.cfg.toneLen .mark * t.sph.toNat / s.cfg.toneLen .space)

/-- 41 R162: tone and counter after a FILL. -/
def Obligations.FillCountsAndSwitches : Prop :=
  ∀ (s : State) (n : Count), s.Inv → s.Admits n.toNat →
    ∃ t, exec (.fill n) s = .next t
      ∧ (s.cfg.opR ≤ (s.cnt.toNat + n.toNat : Nat) →
          t.tone = s.tone.other ∧ (t.cnt.toNat : Int) = (s.cnt.toNat + n.toNat : Nat) - s.cfg.opR)
      ∧ ((s.cnt.toNat + n.toNat : Nat) < s.cfg.opR → t.tone = s.tone ∧ t.cnt.toNat = s.cnt.toNat + n.toNat)

/-- 41 R150 to R162: what a FILL leaves unchanged. -/
def Obligations.FillFrame : Prop :=
  ∀ (s : State) (n : Count), s.Inv → s.Admits n.toNat →
    ∃ t, exec (.fill n) s = .next t
      ∧ t = { s with cph := t.cph, mph := t.mph, sph := t.sph, tone := t.tone, cnt := t.cnt, buf := t.buf }

/-- 41 R165: FILL 0, its launch premise met (70 R268), writes no byte, translates the inactive phase, and flips exactly when the counter already held R or more. -/
def Obligations.FillZeroTranslatesAndSwitches : Prop :=
  ∀ s : State, s.Inv → s.mode = .ready → s.buflenTrue = true →
    ∃ t, exec (.fill 0) s = .next t
      ∧ t = { s with mph := t.mph, sph := t.sph, tone := t.tone, cnt := t.cnt }
      ∧ t.phase s.tone = s.phase s.tone
      ∧ (t.phase s.tone.other).toNat = s.cfg.toneLen s.tone.other * (s.phase s.tone).toNat / s.cfg.toneLen s.tone
      ∧ (t.tone = s.tone.other ↔ s.cfg.opR ≤ s.cnt.toNat)
      ∧ (t.cnt.toNat : Int) = if s.cfg.opR ≤ s.cnt.toNat then s.cnt.toNat - s.cfg.opR else s.cnt.toNat

/-- 41 R166: splitting a batch whose first part does not flip changes neither the bytes nor the state. -/
def Obligations.FillSplitsIntoTwo : Prop :=
  ∀ (s : State) (n₁ n₂ n : Count), s.Inv → n.toNat = n₁.toNat + n₂.toNat → s.Admits n.toNat →
    ((s.cnt.toNat + n₁.toNat : Nat) : Int) < s.cfg.opR →
    ∃ t t₁ t₂, exec (.fill n) s = .next t ∧ exec (.fill n₁) s = .next t₁ ∧ exec (.fill n₂) t₁ = .next t₂
      ∧ t = { t₂ with buf := t.buf }
      ∧ (∀ off, off < 2 * n₁.toNat → t.buf.read off = t₁.buf.read off)
      ∧ (∀ off, off < 2 * n₂.toNat → t.buf.read (2 * n₁.toNat + off) = t₂.buf.read off)

/-- 41 R167: the pair of the active tone phase and the carrier phase returns exactly at the multiples of lcm(L, C). -/
def Obligations.PhasesReturnAtMultiplesOfLcm : Prop :=
  ∀ (s : State) (n : Count), s.Inv → s.Admits n.toNat →
    ∃ t, exec (.fill n) s = .next t
      ∧ (t.phase s.tone).toNat = ((s.phase s.tone).toNat + n.toNat) % s.cfg.toneLen s.tone
      ∧ t.cph.toNat = (s.cph.toNat + n.toNat) % s.cfg.carrierLen
      ∧ (t.phase s.tone = s.phase s.tone ∧ t.cph = s.cph ↔ Nat.lcm (s.cfg.toneLen s.tone) s.cfg.carrierLen ∣ n.toNat)

/-- 41 R163: over any run of FILLs, CNT = S - F·R; and batches of at most R keep it below R. -/
def Obligations.CounterIsPairsMinusFlips : Prop :=
  ∀ (ns : List Count) (s t : State) (flips : Nat), s.Inv → s.mode = .ready → runFills ns s = some (t, flips) → t.mode = .ready →
    (t.cnt.toNat : Int) + flips * s.cfg.opR = s.cnt.toNat + totalPairs ns
      ∧ ((s.cnt.toNat : Int) < s.cfg.opR → (∀ n ∈ ns, (n.toNat : Int) ≤ s.cfg.opR) → (t.cnt.toNat : Int) < s.cfg.opR)

/-- 41 R168: from CNT = 0 and with `BUFLEN` true (70 R268), batches that sum to R + k with k < R flip the tone exactly once and leave k; the flip falls at the end of the
batch with which the running sum first reaches R, and the batches after it run in the new tone. -/
def Obligations.TimedSwitchIsDeterministic : Prop :=
  ∀ (ns : List Count) (s : State) (k : Nat), s.Inv → s.mode = .ready → s.cnt = 0 → s.buflenTrue = true →
    (∀ n ∈ ns, 2 * n.toNat ≤ s.capacity) → (totalPairs ns : Int) = s.cfg.opR + k → (k : Int) < s.cfg.opR →
    ∃ t, runFills ns s = some (t, 1) ∧ t.tone = s.tone.other ∧ t.cnt.toNat = k
      ∧ ∀ before after, ns = before ++ after →
          ∃ u flips, runFills before s = some (u, flips)
            ∧ ((totalPairs before : Int) < s.cfg.opR → u.tone = s.tone ∧ flips = 0)
            ∧ (s.cfg.opR ≤ (totalPairs before : Int) → u.tone = s.tone.other ∧ flips = 1)

/-- 41 R155: over any run of FILLs, of either tone, the carrier phase counts every pair, modulo C. -/
def Obligations.CarrierPhaseCountsAllPairs : Prop :=
  ∀ (ns : List Count) (s t : State) (flips : Nat), s.Inv → s.mode = .ready → runFills ns s = some (t, flips) → t.mode = .ready →
    t.cph.toNat = (s.cph.toNat + totalPairs ns) % s.cfg.carrierLen

/-! ## The whole machine -/

/-- The invariant holds at reset, of the reference instance and of every other that can be made (00 R7). -/
def Obligations.InvariantHoldsAtReset : Prop := State.reset.Inv ∧ ∀ k : Capacities, k.Legal → (State.resetOf k).Inv

/-- 10 R26, R36, R38, R39, 41 R163: every step keeps the invariant, in every state that has it. -/
def Obligations.StepKeepsInvariant : Prop :=
  ∀ s t : State, s.Inv → step s = .next t → t.Inv

/-- 60 R224, 41 R163: no internal error is ever met: every step from a state with the invariant has a next state, but for the FILL whose launch
premise is broken, which is outside the model (70 R268, log 6). -/
def Obligations.StepAlwaysCompletes : Prop :=
  ∀ s : State, s.Inv → (∃ t, step s = .next t)
    ∨ (step s = .refused .buflenUntrue ∧ s.mode = .ready ∧ s.buflenTrue = false
        ∧ ∃ w rest n, s.port = .bus w :: rest ∧ decode w = .fill n ∧ 2 * n.toNat ≤ s.capacity)

/-- 00 R7, 10 R43: the capacities are fixed when the hardware is made; nothing changes them. -/
def Obligations.CapacitiesAreFixed : Prop :=
  ∀ s t : State, step s = .next t → t.caps = s.caps

/-- 10 R38: the transitions of MODE. -/
def Obligations.ModeTransitions : Prop :=
  ∀ s t : State, step s = .next t → t.mode ≠ s.mode →
    (t.mode = .unbuilt ∧ ∃ rest, s.port = .reset :: rest)
      ∨ (s.mode = .unbuilt ∧ t.mode = .ready ∧ s.cfg.Legal s.caps ∧ ∃ w rest, s.port = .bus w :: rest ∧ decode w = .build)
      ∨ (s.mode ≠ .faulted ∧ t.mode = .faulted ∧ t.err ≠ .none)

/-- 60 R229, R230: in Faulted nothing but RESET changes the block: no register, no table, no fault record. The buffer changes only by the
host's exchange of it (log 5); the port and its answer are the model's (logs 1, 3). -/
def Obligations.FaultRecordIsSticky : Prop :=
  ∀ s t : State, s.mode = .faulted → step s = .next t →
    (∃ rest, s.port = .reset :: rest)
      ∨ (t = { s with buf := t.buf, bufSize := t.bufSize, taken := t.taken, port := t.port, answer := t.answer }
          ∧ t.statusWord = s.statusWord
          ∧ (t.buf ≠ s.buf ∨ t.bufSize ≠ s.bufSize → ∃ bytes rest, s.port = .handOver bytes :: rest))

/-- 10 R39, 20 R75: the tables change only by a successful BUILD in Unbuilt and by RESET. -/
def Obligations.TablesChangeOnlyByBuildAndReset : Prop :=
  ∀ s t : State, step s = .next t → t.tables ≠ s.tables →
    (∃ rest, s.port = .reset :: rest)
      ∨ (s.mode = .unbuilt ∧ t.mode = .ready ∧ ∃ w rest, s.port = .bus w :: rest ∧ decode w = .build)

/-- 10 R34: outside Unbuilt the configuration registers change only by RESET; inside, only by a WRREG of one of them or by RESET. -/
def Obligations.ConfigurationIsLocked : Prop :=
  ∀ s t : State, step s = .next t → t.cfg ≠ s.cfg →
    (∃ rest, s.port = .reset :: rest)
      ∨ (s.mode = .unbuilt ∧ ∃ w rest r v, s.port = .bus w :: rest ∧ decode w = .wrreg r v ∧ r.idx.toNat ≤ 7)

/-- 10 R20: SynthesisState is written only by RESET, BUILD and FILL. -/
def Obligations.SynthesisStateWriters : Prop :=
  ∀ s t : State, step s = .next t →
    t.cph ≠ s.cph ∨ t.mph ≠ s.mph ∨ t.sph ≠ s.sph ∨ t.tone ≠ s.tone ∨ t.cnt ≠ s.cnt →
    (∃ rest, s.port = .reset :: rest)
      ∨ ∃ w rest, s.port = .bus w :: rest ∧ ((s.mode = .unbuilt ∧ decode w = .build) ∨ (s.mode = .ready ∧ ∃ n, decode w = .fill n))

/-- 20 R60, R62, 70 R268 (and logs 5 and 6): the buffer is written only by a FILL in Ready whose pairs fit it, and exchanged only by the
host; only the exchange changes its real size. -/
def Obligations.BufferWriters : Prop :=
  ∀ s t : State, step s = .next t →
    (t.buf ≠ s.buf →
      (∃ bytes rest, s.port = .handOver bytes :: rest)
        ∨ (s.mode = .ready ∧ s.buflenTrue = true
            ∧ ∃ w rest n, s.port = .bus w :: rest ∧ decode w = .fill n ∧ 2 * n.toNat ≤ s.capacity))
    ∧ (t.bufSize ≠ s.bufSize → ∃ bytes rest, s.port = .handOver bytes :: rest)
end

