-- ==== Sys2Proof/Laws/Memory.lean ====
section
/-! SUPPORT. The laws of the sink's buffer: reading after writing, the canonical form, and equality of canonical buffers. -/

namespace Sys2Proof.Machine

@[simp] theorem Memory.read_write_same (m : Memory) (off : Nat) (v : Byte) : (m.write off v).read off = some v := by
  induction m with
  | nil => simp [Memory.write, Memory.read]
  | cons p m ih =>
    obtain ⟨a, b⟩ := p
    unfold Memory.write
    split
    · simp [Memory.read]
    · split
      · simp [Memory.read]
      · rename_i h1 h2
        simp [Memory.read, Ne.symm h2, ih]

theorem Memory.read_write_ne (m : Memory) {off off' : Nat} (h : off' ≠ off) (v : Byte) :
    (m.write off v).read off' = m.read off' := by
  induction m with
  | nil => simp [Memory.write, Memory.read, Ne.symm h]
  | cons p m ih =>
    obtain ⟨a, b⟩ := p
    unfold Memory.write
    split
    · simp [Memory.read, Ne.symm h]
    · split
      · rename_i h2
        subst h2
        simp [Memory.read, Ne.symm h]
      · simp [Memory.read, ih]

/-- The canonical form, read as: the first offset is below every later one. -/
theorem Memory.wf_cons {a : Nat} {b : Byte} {m : Memory} :
    Memory.wf ((a, b) :: m) = true ↔ (∀ p ∈ m, a < p.1) ∧ m.wf = true := by
  induction m generalizing a b with
  | nil => simp [Memory.wf]
  | cons q m ih =>
    obtain ⟨a', b'⟩ := q
    rw [Memory.wf, Bool.and_eq_true, decide_eq_true_eq, ih]
    constructor
    · rintro ⟨h, h', hw⟩
      refine ⟨fun p hp => ?_, h', hw⟩
      rcases List.mem_cons.mp hp with rfl | hp
      · exact h
      · exact h.trans (h' p hp)
    · rintro ⟨h, h'⟩
      exact ⟨h _ List.mem_cons_self, h'⟩

theorem Memory.mem_write {m : Memory} {off : Nat} {v : Byte} {p : Host.Cell} (h : p ∈ m.write off v) :
    p = (off, v) ∨ p ∈ m := by
  induction m with
  | nil => simpa [Memory.write] using h
  | cons q m ih =>
    obtain ⟨a, b⟩ := q
    unfold Memory.write at h
    split at h
    · simpa using h
    · split at h
      · rcases List.mem_cons.mp h with rfl | h
        · exact Or.inl rfl
        · exact Or.inr (List.mem_cons_of_mem _ h)
      · rcases List.mem_cons.mp h with rfl | h
        · exact Or.inr List.mem_cons_self
        · exact (ih h).imp_right (List.mem_cons_of_mem _)

/-- A write keeps the canonical form. -/
theorem Memory.wf_write {m : Memory} (h : m.wf = true) (off : Nat) (v : Byte) : (m.write off v).wf = true := by
  induction m with
  | nil => rfl
  | cons p m ih =>
    obtain ⟨a, b⟩ := p
    have hm := Memory.wf_cons.mp h
    unfold Memory.write
    split
    · rename_i h1
      refine Memory.wf_cons.mpr ⟨fun p hp => ?_, h⟩
      rcases List.mem_cons.mp hp with rfl | hp
      · exact h1
      · exact h1.trans (hm.1 p hp)
    · split
      · rename_i h1 h2
        subst h2
        exact Memory.wf_cons.mpr hm
      · rename_i h1 h2
        refine Memory.wf_cons.mpr ⟨fun p hp => ?_, ih hm.2⟩
        rcases Memory.mem_write hp with rfl | hp
        · show a < off
          omega
        · exact hm.1 p hp

theorem Memory.le_of_mem_ofBytes {bs : List Byte} {off : Nat} {p : Host.Cell} (h : p ∈ Memory.ofBytes off bs) : off ≤ p.1 := by
  induction bs generalizing off with
  | nil => simp [Memory.ofBytes] at h
  | cons b bs ih =>
    rcases List.mem_cons.mp h with rfl | h
    · exact le_refl _
    · exact (Nat.le_succ off).trans (ih h)

/-- A buffer handed over is in canonical form. -/
theorem Memory.wf_ofBytes (off : Nat) (bs : List Byte) : (Memory.ofBytes off bs).wf = true := by
  induction bs generalizing off with
  | nil => rfl
  | cons b bs ih => exact Memory.wf_cons.mpr ⟨fun p hp => Memory.le_of_mem_ofBytes hp, ih (off + 1)⟩

/-- Byte `i` of a buffer handed over stands at offset `i`. -/
theorem Memory.read_ofBytes (off : Nat) (bs : List Byte) (i : Nat) : (Memory.ofBytes off bs).read (off + i) = bs[i]? := by
  induction bs generalizing off i with
  | nil => simp [Memory.ofBytes, Memory.read]
  | cons b bs ih =>
    cases i with
    | zero => simp [Memory.ofBytes, Memory.read]
    | succ i =>
      have h := ih (off + 1) i
      rw [show off + 1 + i = off + (i + 1) by omega] at h
      simp [Memory.ofBytes, Memory.read, h]

theorem Memory.read_eq_none {m : Memory} {off : Nat} (h : ∀ p ∈ m, off < p.1) : m.read off = none := by
  induction m with
  | nil => rfl
  | cons p m ih =>
    obtain ⟨a, b⟩ := p
    have h1 : off < a := h _ List.mem_cons_self
    rw [Memory.read, if_neg (by omega)]
    exact ih fun p hp => h p (List.mem_cons_of_mem _ hp)

/-- Two buffers in canonical form with the same bytes are the same data. -/
theorem Memory.eq_of_read_eq {m m' : Memory} (h : m.wf = true) (h' : m'.wf = true) (hr : ∀ off, m.read off = m'.read off) :
    m = m' := by
  induction m generalizing m' with
  | nil =>
    cases m' with
    | nil => rfl
    | cons p m' => have := hr p.1; simp [Memory.read] at this
  | cons p m ih =>
    obtain ⟨a, b⟩ := p
    cases m' with
    | nil => have := hr a; simp [Memory.read] at this
    | cons p' m' =>
      obtain ⟨a', b'⟩ := p'
      obtain ⟨hlt, hw⟩ := Memory.wf_cons.mp h
      obtain ⟨hlt', hw'⟩ := Memory.wf_cons.mp h'
      have key : a = a' := by
        by_contra hne
        rcases Nat.lt_or_gt_of_ne hne with hl | hl
        · have h1 := hr a
          rw [Memory.read_eq_none (m := (a', b') :: m')
            (fun p hp => by
              rcases List.mem_cons.mp hp with rfl | hp
              · exact hl
              · exact hl.trans (hlt' p hp))] at h1
          simp [Memory.read] at h1
        · have h1 := hr a'
          rw [Memory.read_eq_none (m := (a, b) :: m)
            (fun p hp => by
              rcases List.mem_cons.mp hp with rfl | hp
              · exact hl
              · exact hl.trans (hlt p hp))] at h1
          simp [Memory.read] at h1
      subst key
      have hb : b = b' := by simpa [Memory.read] using hr a
      subst hb
      refine congrArg _ (ih hw hw' fun off => ?_)
      have h1 := hr off
      simp only [Memory.read] at h1
      split at h1
      · rename_i h2
        subst h2
        rw [Memory.read_eq_none hlt, Memory.read_eq_none hlt']
      · exact h1

end Sys2Proof.Machine
end

