-- ==== Sys2Proof/Laws/State.lean ====
section
/-! SUPPORT. One lemma per field per update of the state, true by definition, so that no proof unfolds a record update. -/

namespace Sys2Proof.Machine

@[simp] theorem State.setCfg_caps (s : State) (g : CfgRegs) : (s.setCfg g).caps = s.caps := rfl
@[simp] theorem State.setCfg_cfg (s : State) (g : CfgRegs) : (s.setCfg g).cfg = g := rfl
@[simp] theorem State.setCfg_buflen (s : State) (g : CfgRegs) : (s.setCfg g).buflen = s.buflen := rfl
@[simp] theorem State.setCfg_cph (s : State) (g : CfgRegs) : (s.setCfg g).cph = s.cph := rfl
@[simp] theorem State.setCfg_mph (s : State) (g : CfgRegs) : (s.setCfg g).mph = s.mph := rfl
@[simp] theorem State.setCfg_sph (s : State) (g : CfgRegs) : (s.setCfg g).sph = s.sph := rfl
@[simp] theorem State.setCfg_tone (s : State) (g : CfgRegs) : (s.setCfg g).tone = s.tone := rfl
@[simp] theorem State.setCfg_cnt (s : State) (g : CfgRegs) : (s.setCfg g).cnt = s.cnt := rfl
@[simp] theorem State.setCfg_mode (s : State) (g : CfgRegs) : (s.setCfg g).mode = s.mode := rfl
@[simp] theorem State.setCfg_err (s : State) (g : CfgRegs) : (s.setCfg g).err = s.err := rfl
@[simp] theorem State.setCfg_errInfo (s : State) (g : CfgRegs) : (s.setCfg g).errInfo = s.errInfo := rfl
@[simp] theorem State.setCfg_tables (s : State) (g : CfgRegs) : (s.setCfg g).tables = s.tables := rfl
@[simp] theorem State.setCfg_buf (s : State) (g : CfgRegs) : (s.setCfg g).buf = s.buf := rfl
@[simp] theorem State.setCfg_bufSize (s : State) (g : CfgRegs) : (s.setCfg g).bufSize = s.bufSize := rfl
@[simp] theorem State.setCfg_taken (s : State) (g : CfgRegs) : (s.setCfg g).taken = s.taken := rfl
@[simp] theorem State.setCfg_port (s : State) (g : CfgRegs) : (s.setCfg g).port = s.port := rfl
@[simp] theorem State.setCfg_answer (s : State) (g : CfgRegs) : (s.setCfg g).answer = s.answer := rfl

@[simp] theorem State.setBuflen_caps (s : State) (v : Word) : (s.setBuflen v).caps = s.caps := rfl
@[simp] theorem State.setBuflen_cfg (s : State) (v : Word) : (s.setBuflen v).cfg = s.cfg := rfl
@[simp] theorem State.setBuflen_buflen (s : State) (v : Word) : (s.setBuflen v).buflen = v := rfl
@[simp] theorem State.setBuflen_cph (s : State) (v : Word) : (s.setBuflen v).cph = s.cph := rfl
@[simp] theorem State.setBuflen_mph (s : State) (v : Word) : (s.setBuflen v).mph = s.mph := rfl
@[simp] theorem State.setBuflen_sph (s : State) (v : Word) : (s.setBuflen v).sph = s.sph := rfl
@[simp] theorem State.setBuflen_tone (s : State) (v : Word) : (s.setBuflen v).tone = s.tone := rfl
@[simp] theorem State.setBuflen_cnt (s : State) (v : Word) : (s.setBuflen v).cnt = s.cnt := rfl
@[simp] theorem State.setBuflen_mode (s : State) (v : Word) : (s.setBuflen v).mode = s.mode := rfl
@[simp] theorem State.setBuflen_err (s : State) (v : Word) : (s.setBuflen v).err = s.err := rfl
@[simp] theorem State.setBuflen_errInfo (s : State) (v : Word) : (s.setBuflen v).errInfo = s.errInfo := rfl
@[simp] theorem State.setBuflen_tables (s : State) (v : Word) : (s.setBuflen v).tables = s.tables := rfl
@[simp] theorem State.setBuflen_buf (s : State) (v : Word) : (s.setBuflen v).buf = s.buf := rfl
@[simp] theorem State.setBuflen_bufSize (s : State) (v : Word) : (s.setBuflen v).bufSize = s.bufSize := rfl
@[simp] theorem State.setBuflen_taken (s : State) (v : Word) : (s.setBuflen v).taken = s.taken := rfl
@[simp] theorem State.setBuflen_port (s : State) (v : Word) : (s.setBuflen v).port = s.port := rfl
@[simp] theorem State.setBuflen_answer (s : State) (v : Word) : (s.setBuflen v).answer = s.answer := rfl

@[simp] theorem State.setCph_caps (s : State) (v : Word) : (s.setCph v).caps = s.caps := rfl
@[simp] theorem State.setCph_cfg (s : State) (v : Word) : (s.setCph v).cfg = s.cfg := rfl
@[simp] theorem State.setCph_buflen (s : State) (v : Word) : (s.setCph v).buflen = s.buflen := rfl
@[simp] theorem State.setCph_cph (s : State) (v : Word) : (s.setCph v).cph = v := rfl
@[simp] theorem State.setCph_mph (s : State) (v : Word) : (s.setCph v).mph = s.mph := rfl
@[simp] theorem State.setCph_sph (s : State) (v : Word) : (s.setCph v).sph = s.sph := rfl
@[simp] theorem State.setCph_tone (s : State) (v : Word) : (s.setCph v).tone = s.tone := rfl
@[simp] theorem State.setCph_cnt (s : State) (v : Word) : (s.setCph v).cnt = s.cnt := rfl
@[simp] theorem State.setCph_mode (s : State) (v : Word) : (s.setCph v).mode = s.mode := rfl
@[simp] theorem State.setCph_err (s : State) (v : Word) : (s.setCph v).err = s.err := rfl
@[simp] theorem State.setCph_errInfo (s : State) (v : Word) : (s.setCph v).errInfo = s.errInfo := rfl
@[simp] theorem State.setCph_tables (s : State) (v : Word) : (s.setCph v).tables = s.tables := rfl
@[simp] theorem State.setCph_buf (s : State) (v : Word) : (s.setCph v).buf = s.buf := rfl
@[simp] theorem State.setCph_bufSize (s : State) (v : Word) : (s.setCph v).bufSize = s.bufSize := rfl
@[simp] theorem State.setCph_taken (s : State) (v : Word) : (s.setCph v).taken = s.taken := rfl
@[simp] theorem State.setCph_port (s : State) (v : Word) : (s.setCph v).port = s.port := rfl
@[simp] theorem State.setCph_answer (s : State) (v : Word) : (s.setCph v).answer = s.answer := rfl

@[simp] theorem State.setPhase_caps (s : State) (t : Tone) (v : Word) : (s.setPhase t v).caps = s.caps := rfl
@[simp] theorem State.setPhase_cfg (s : State) (t : Tone) (v : Word) : (s.setPhase t v).cfg = s.cfg := rfl
@[simp] theorem State.setPhase_buflen (s : State) (t : Tone) (v : Word) : (s.setPhase t v).buflen = s.buflen := rfl
@[simp] theorem State.setPhase_cph (s : State) (t : Tone) (v : Word) : (s.setPhase t v).cph = s.cph := rfl
@[simp] theorem State.setPhase_mph (s : State) (t : Tone) (v : Word) : (s.setPhase t v).mph = if t = .mark then v else s.mph := rfl
@[simp] theorem State.setPhase_sph (s : State) (t : Tone) (v : Word) : (s.setPhase t v).sph = if t = .space then v else s.sph := rfl
@[simp] theorem State.setPhase_tone (s : State) (t : Tone) (v : Word) : (s.setPhase t v).tone = s.tone := rfl
@[simp] theorem State.setPhase_cnt (s : State) (t : Tone) (v : Word) : (s.setPhase t v).cnt = s.cnt := rfl
@[simp] theorem State.setPhase_mode (s : State) (t : Tone) (v : Word) : (s.setPhase t v).mode = s.mode := rfl
@[simp] theorem State.setPhase_err (s : State) (t : Tone) (v : Word) : (s.setPhase t v).err = s.err := rfl
@[simp] theorem State.setPhase_errInfo (s : State) (t : Tone) (v : Word) : (s.setPhase t v).errInfo = s.errInfo := rfl
@[simp] theorem State.setPhase_tables (s : State) (t : Tone) (v : Word) : (s.setPhase t v).tables = s.tables := rfl
@[simp] theorem State.setPhase_buf (s : State) (t : Tone) (v : Word) : (s.setPhase t v).buf = s.buf := rfl
@[simp] theorem State.setPhase_bufSize (s : State) (t : Tone) (v : Word) : (s.setPhase t v).bufSize = s.bufSize := rfl
@[simp] theorem State.setPhase_taken (s : State) (t : Tone) (v : Word) : (s.setPhase t v).taken = s.taken := rfl
@[simp] theorem State.setPhase_port (s : State) (t : Tone) (v : Word) : (s.setPhase t v).port = s.port := rfl
@[simp] theorem State.setPhase_answer (s : State) (t : Tone) (v : Word) : (s.setPhase t v).answer = s.answer := rfl

@[simp] theorem State.setToneCnt_caps (s : State) (t : Tone) (v : Word) : (s.setToneCnt t v).caps = s.caps := rfl
@[simp] theorem State.setToneCnt_cfg (s : State) (t : Tone) (v : Word) : (s.setToneCnt t v).cfg = s.cfg := rfl
@[simp] theorem State.setToneCnt_buflen (s : State) (t : Tone) (v : Word) : (s.setToneCnt t v).buflen = s.buflen := rfl
@[simp] theorem State.setToneCnt_cph (s : State) (t : Tone) (v : Word) : (s.setToneCnt t v).cph = s.cph := rfl
@[simp] theorem State.setToneCnt_mph (s : State) (t : Tone) (v : Word) : (s.setToneCnt t v).mph = s.mph := rfl
@[simp] theorem State.setToneCnt_sph (s : State) (t : Tone) (v : Word) : (s.setToneCnt t v).sph = s.sph := rfl
@[simp] theorem State.setToneCnt_tone (s : State) (t : Tone) (v : Word) : (s.setToneCnt t v).tone = t := rfl
@[simp] theorem State.setToneCnt_cnt (s : State) (t : Tone) (v : Word) : (s.setToneCnt t v).cnt = v := rfl
@[simp] theorem State.setToneCnt_mode (s : State) (t : Tone) (v : Word) : (s.setToneCnt t v).mode = s.mode := rfl
@[simp] theorem State.setToneCnt_err (s : State) (t : Tone) (v : Word) : (s.setToneCnt t v).err = s.err := rfl
@[simp] theorem State.setToneCnt_errInfo (s : State) (t : Tone) (v : Word) : (s.setToneCnt t v).errInfo = s.errInfo := rfl
@[simp] theorem State.setToneCnt_tables (s : State) (t : Tone) (v : Word) : (s.setToneCnt t v).tables = s.tables := rfl
@[simp] theorem State.setToneCnt_buf (s : State) (t : Tone) (v : Word) : (s.setToneCnt t v).buf = s.buf := rfl
@[simp] theorem State.setToneCnt_bufSize (s : State) (t : Tone) (v : Word) : (s.setToneCnt t v).bufSize = s.bufSize := rfl
@[simp] theorem State.setToneCnt_taken (s : State) (t : Tone) (v : Word) : (s.setToneCnt t v).taken = s.taken := rfl
@[simp] theorem State.setToneCnt_port (s : State) (t : Tone) (v : Word) : (s.setToneCnt t v).port = s.port := rfl
@[simp] theorem State.setToneCnt_answer (s : State) (t : Tone) (v : Word) : (s.setToneCnt t v).answer = s.answer := rfl

@[simp] theorem State.setBuf_caps (s : State) (m : Memory) : (s.setBuf m).caps = s.caps := rfl
@[simp] theorem State.setBuf_cfg (s : State) (m : Memory) : (s.setBuf m).cfg = s.cfg := rfl
@[simp] theorem State.setBuf_buflen (s : State) (m : Memory) : (s.setBuf m).buflen = s.buflen := rfl
@[simp] theorem State.setBuf_cph (s : State) (m : Memory) : (s.setBuf m).cph = s.cph := rfl
@[simp] theorem State.setBuf_mph (s : State) (m : Memory) : (s.setBuf m).mph = s.mph := rfl
@[simp] theorem State.setBuf_sph (s : State) (m : Memory) : (s.setBuf m).sph = s.sph := rfl
@[simp] theorem State.setBuf_tone (s : State) (m : Memory) : (s.setBuf m).tone = s.tone := rfl
@[simp] theorem State.setBuf_cnt (s : State) (m : Memory) : (s.setBuf m).cnt = s.cnt := rfl
@[simp] theorem State.setBuf_mode (s : State) (m : Memory) : (s.setBuf m).mode = s.mode := rfl
@[simp] theorem State.setBuf_err (s : State) (m : Memory) : (s.setBuf m).err = s.err := rfl
@[simp] theorem State.setBuf_errInfo (s : State) (m : Memory) : (s.setBuf m).errInfo = s.errInfo := rfl
@[simp] theorem State.setBuf_tables (s : State) (m : Memory) : (s.setBuf m).tables = s.tables := rfl
@[simp] theorem State.setBuf_buf (s : State) (m : Memory) : (s.setBuf m).buf = m := rfl
@[simp] theorem State.setBuf_bufSize (s : State) (m : Memory) : (s.setBuf m).bufSize = s.bufSize := rfl
@[simp] theorem State.setBuf_taken (s : State) (m : Memory) : (s.setBuf m).taken = s.taken := rfl
@[simp] theorem State.setBuf_port (s : State) (m : Memory) : (s.setBuf m).port = s.port := rfl
@[simp] theorem State.setBuf_answer (s : State) (m : Memory) : (s.setBuf m).answer = s.answer := rfl

@[simp] theorem State.setAnswer_caps (s : State) (v : Word) : (s.setAnswer v).caps = s.caps := rfl
@[simp] theorem State.setAnswer_cfg (s : State) (v : Word) : (s.setAnswer v).cfg = s.cfg := rfl
@[simp] theorem State.setAnswer_buflen (s : State) (v : Word) : (s.setAnswer v).buflen = s.buflen := rfl
@[simp] theorem State.setAnswer_cph (s : State) (v : Word) : (s.setAnswer v).cph = s.cph := rfl
@[simp] theorem State.setAnswer_mph (s : State) (v : Word) : (s.setAnswer v).mph = s.mph := rfl
@[simp] theorem State.setAnswer_sph (s : State) (v : Word) : (s.setAnswer v).sph = s.sph := rfl
@[simp] theorem State.setAnswer_tone (s : State) (v : Word) : (s.setAnswer v).tone = s.tone := rfl
@[simp] theorem State.setAnswer_cnt (s : State) (v : Word) : (s.setAnswer v).cnt = s.cnt := rfl
@[simp] theorem State.setAnswer_mode (s : State) (v : Word) : (s.setAnswer v).mode = s.mode := rfl
@[simp] theorem State.setAnswer_err (s : State) (v : Word) : (s.setAnswer v).err = s.err := rfl
@[simp] theorem State.setAnswer_errInfo (s : State) (v : Word) : (s.setAnswer v).errInfo = s.errInfo := rfl
@[simp] theorem State.setAnswer_tables (s : State) (v : Word) : (s.setAnswer v).tables = s.tables := rfl
@[simp] theorem State.setAnswer_buf (s : State) (v : Word) : (s.setAnswer v).buf = s.buf := rfl
@[simp] theorem State.setAnswer_bufSize (s : State) (v : Word) : (s.setAnswer v).bufSize = s.bufSize := rfl
@[simp] theorem State.setAnswer_taken (s : State) (v : Word) : (s.setAnswer v).taken = s.taken := rfl
@[simp] theorem State.setAnswer_port (s : State) (v : Word) : (s.setAnswer v).port = s.port := rfl
@[simp] theorem State.setAnswer_answer (s : State) (v : Word) : (s.setAnswer v).answer = some v := rfl

@[simp] theorem State.load_caps (s : State) (t : Tables) (b : Tone) : (s.load t b).caps = s.caps := rfl
@[simp] theorem State.load_cfg (s : State) (t : Tables) (b : Tone) : (s.load t b).cfg = s.cfg := rfl
@[simp] theorem State.load_buflen (s : State) (t : Tables) (b : Tone) : (s.load t b).buflen = s.buflen := rfl
@[simp] theorem State.load_cph (s : State) (t : Tables) (b : Tone) : (s.load t b).cph = 0 := rfl
@[simp] theorem State.load_mph (s : State) (t : Tables) (b : Tone) : (s.load t b).mph = 0 := rfl
@[simp] theorem State.load_sph (s : State) (t : Tables) (b : Tone) : (s.load t b).sph = 0 := rfl
@[simp] theorem State.load_tone (s : State) (t : Tables) (b : Tone) : (s.load t b).tone = b := rfl
@[simp] theorem State.load_cnt (s : State) (t : Tables) (b : Tone) : (s.load t b).cnt = 0 := rfl
@[simp] theorem State.load_mode (s : State) (t : Tables) (b : Tone) : (s.load t b).mode = .ready := rfl
@[simp] theorem State.load_err (s : State) (t : Tables) (b : Tone) : (s.load t b).err = s.err := rfl
@[simp] theorem State.load_errInfo (s : State) (t : Tables) (b : Tone) : (s.load t b).errInfo = s.errInfo := rfl
@[simp] theorem State.load_tables (s : State) (t : Tables) (b : Tone) : (s.load t b).tables = some t := rfl
@[simp] theorem State.load_buf (s : State) (t : Tables) (b : Tone) : (s.load t b).buf = s.buf := rfl
@[simp] theorem State.load_bufSize (s : State) (t : Tables) (b : Tone) : (s.load t b).bufSize = s.bufSize := rfl
@[simp] theorem State.load_taken (s : State) (t : Tables) (b : Tone) : (s.load t b).taken = s.taken := rfl
@[simp] theorem State.load_port (s : State) (t : Tables) (b : Tone) : (s.load t b).port = s.port := rfl
@[simp] theorem State.load_answer (s : State) (t : Tables) (b : Tone) : (s.load t b).answer = s.answer := rfl

@[simp] theorem State.raise_caps (s : State) (k : Err) (info : Byte) : (s.raise k info).caps = s.caps := rfl
@[simp] theorem State.raise_cfg (s : State) (k : Err) (info : Byte) : (s.raise k info).cfg = s.cfg := rfl
@[simp] theorem State.raise_buflen (s : State) (k : Err) (info : Byte) : (s.raise k info).buflen = s.buflen := rfl
@[simp] theorem State.raise_cph (s : State) (k : Err) (info : Byte) : (s.raise k info).cph = s.cph := rfl
@[simp] theorem State.raise_mph (s : State) (k : Err) (info : Byte) : (s.raise k info).mph = s.mph := rfl
@[simp] theorem State.raise_sph (s : State) (k : Err) (info : Byte) : (s.raise k info).sph = s.sph := rfl
@[simp] theorem State.raise_tone (s : State) (k : Err) (info : Byte) : (s.raise k info).tone = s.tone := rfl
@[simp] theorem State.raise_cnt (s : State) (k : Err) (info : Byte) : (s.raise k info).cnt = s.cnt := rfl
@[simp] theorem State.raise_mode (s : State) (k : Err) (info : Byte) : (s.raise k info).mode = .faulted := rfl
@[simp] theorem State.raise_err (s : State) (k : Err) (info : Byte) : (s.raise k info).err = k := rfl
@[simp] theorem State.raise_errInfo (s : State) (k : Err) (info : Byte) : (s.raise k info).errInfo = info := rfl
@[simp] theorem State.raise_tables (s : State) (k : Err) (info : Byte) : (s.raise k info).tables = s.tables := rfl
@[simp] theorem State.raise_buf (s : State) (k : Err) (info : Byte) : (s.raise k info).buf = s.buf := rfl
@[simp] theorem State.raise_bufSize (s : State) (k : Err) (info : Byte) : (s.raise k info).bufSize = s.bufSize := rfl
@[simp] theorem State.raise_taken (s : State) (k : Err) (info : Byte) : (s.raise k info).taken = s.taken := rfl
@[simp] theorem State.raise_port (s : State) (k : Err) (info : Byte) : (s.raise k info).port = s.port := rfl
@[simp] theorem State.raise_answer (s : State) (k : Err) (info : Byte) : (s.raise k info).answer = s.answer := rfl

@[simp] theorem State.resetBlock_caps (s : State) : (s.resetBlock).caps = s.caps := rfl
@[simp] theorem State.resetBlock_cfg (s : State) : (s.resetBlock).cfg = ⟨0, 0, 0, 0, 0, 0, 0, 0⟩ := rfl
@[simp] theorem State.resetBlock_buflen (s : State) : (s.resetBlock).buflen = 0 := rfl
@[simp] theorem State.resetBlock_cph (s : State) : (s.resetBlock).cph = 0 := rfl
@[simp] theorem State.resetBlock_mph (s : State) : (s.resetBlock).mph = 0 := rfl
@[simp] theorem State.resetBlock_sph (s : State) : (s.resetBlock).sph = 0 := rfl
@[simp] theorem State.resetBlock_tone (s : State) : (s.resetBlock).tone = .space := rfl
@[simp] theorem State.resetBlock_cnt (s : State) : (s.resetBlock).cnt = 0 := rfl
@[simp] theorem State.resetBlock_mode (s : State) : (s.resetBlock).mode = .unbuilt := rfl
@[simp] theorem State.resetBlock_err (s : State) : (s.resetBlock).err = .none := rfl
@[simp] theorem State.resetBlock_errInfo (s : State) : (s.resetBlock).errInfo = 0 := rfl
@[simp] theorem State.resetBlock_tables (s : State) : (s.resetBlock).tables = none := rfl
@[simp] theorem State.resetBlock_buf (s : State) : (s.resetBlock).buf = s.buf := rfl
@[simp] theorem State.resetBlock_bufSize (s : State) : (s.resetBlock).bufSize = s.bufSize := rfl
@[simp] theorem State.resetBlock_taken (s : State) : (s.resetBlock).taken = s.taken := rfl
@[simp] theorem State.resetBlock_port (s : State) : (s.resetBlock).port = s.port := rfl
@[simp] theorem State.resetBlock_answer (s : State) : (s.resetBlock).answer = s.answer := rfl

@[simp] theorem State.handOver_caps (s : State) (bytes : List Byte) : (s.handOver bytes).caps = s.caps := rfl
@[simp] theorem State.handOver_cfg (s : State) (bytes : List Byte) : (s.handOver bytes).cfg = s.cfg := rfl
@[simp] theorem State.handOver_buflen (s : State) (bytes : List Byte) : (s.handOver bytes).buflen = s.buflen := rfl
@[simp] theorem State.handOver_cph (s : State) (bytes : List Byte) : (s.handOver bytes).cph = s.cph := rfl
@[simp] theorem State.handOver_mph (s : State) (bytes : List Byte) : (s.handOver bytes).mph = s.mph := rfl
@[simp] theorem State.handOver_sph (s : State) (bytes : List Byte) : (s.handOver bytes).sph = s.sph := rfl
@[simp] theorem State.handOver_tone (s : State) (bytes : List Byte) : (s.handOver bytes).tone = s.tone := rfl
@[simp] theorem State.handOver_cnt (s : State) (bytes : List Byte) : (s.handOver bytes).cnt = s.cnt := rfl
@[simp] theorem State.handOver_mode (s : State) (bytes : List Byte) : (s.handOver bytes).mode = s.mode := rfl
@[simp] theorem State.handOver_err (s : State) (bytes : List Byte) : (s.handOver bytes).err = s.err := rfl
@[simp] theorem State.handOver_errInfo (s : State) (bytes : List Byte) : (s.handOver bytes).errInfo = s.errInfo := rfl
@[simp] theorem State.handOver_tables (s : State) (bytes : List Byte) : (s.handOver bytes).tables = s.tables := rfl
@[simp] theorem State.handOver_buf (s : State) (bytes : List Byte) : (s.handOver bytes).buf = Memory.ofBytes 0 bytes := rfl
@[simp] theorem State.handOver_bufSize (s : State) (bytes : List Byte) : (s.handOver bytes).bufSize = some bytes.length := rfl
@[simp] theorem State.handOver_taken (s : State) (bytes : List Byte) : (s.handOver bytes).taken = s.taken ++ [s.buf] := rfl
@[simp] theorem State.handOver_port (s : State) (bytes : List Byte) : (s.handOver bytes).port = s.port := rfl
@[simp] theorem State.handOver_answer (s : State) (bytes : List Byte) : (s.handOver bytes).answer = s.answer := rfl

@[simp] theorem State.accept_caps (s : State) (rest : List HostMove) : (s.accept rest).caps = s.caps := rfl
@[simp] theorem State.accept_cfg (s : State) (rest : List HostMove) : (s.accept rest).cfg = s.cfg := rfl
@[simp] theorem State.accept_buflen (s : State) (rest : List HostMove) : (s.accept rest).buflen = s.buflen := rfl
@[simp] theorem State.accept_cph (s : State) (rest : List HostMove) : (s.accept rest).cph = s.cph := rfl
@[simp] theorem State.accept_mph (s : State) (rest : List HostMove) : (s.accept rest).mph = s.mph := rfl
@[simp] theorem State.accept_sph (s : State) (rest : List HostMove) : (s.accept rest).sph = s.sph := rfl
@[simp] theorem State.accept_tone (s : State) (rest : List HostMove) : (s.accept rest).tone = s.tone := rfl
@[simp] theorem State.accept_cnt (s : State) (rest : List HostMove) : (s.accept rest).cnt = s.cnt := rfl
@[simp] theorem State.accept_mode (s : State) (rest : List HostMove) : (s.accept rest).mode = s.mode := rfl
@[simp] theorem State.accept_err (s : State) (rest : List HostMove) : (s.accept rest).err = s.err := rfl
@[simp] theorem State.accept_errInfo (s : State) (rest : List HostMove) : (s.accept rest).errInfo = s.errInfo := rfl
@[simp] theorem State.accept_tables (s : State) (rest : List HostMove) : (s.accept rest).tables = s.tables := rfl
@[simp] theorem State.accept_buf (s : State) (rest : List HostMove) : (s.accept rest).buf = s.buf := rfl
@[simp] theorem State.accept_bufSize (s : State) (rest : List HostMove) : (s.accept rest).bufSize = s.bufSize := rfl
@[simp] theorem State.accept_taken (s : State) (rest : List HostMove) : (s.accept rest).taken = s.taken := rfl
@[simp] theorem State.accept_port (s : State) (rest : List HostMove) : (s.accept rest).port = rest := rfl
@[simp] theorem State.accept_answer (s : State) (rest : List HostMove) : (s.accept rest).answer = none := rfl

/-! The phase of a tone, the capacity and the status word. -/

@[simp] theorem Tone.other_other (t : Tone) : t.other.other = t := by cases t <;> rfl
@[simp] theorem Tone.other_ne (t : Tone) : t.other ≠ t := by cases t <;> decide
@[simp] theorem Tone.ne_other (t : Tone) : t ≠ t.other := by cases t <;> decide
theorem Tone.eq_or_eq_other (t u : Tone) : u = t ∨ u = t.other := by cases t <;> cases u <;> decide

@[simp] theorem State.setPhase_phase (s : State) (t : Tone) (v : Word) : (s.setPhase t v).phase t = v := by cases t <;> rfl
theorem State.setPhase_phase_of_ne (s : State) {t u : Tone} (h : u ≠ t) (v : Word) : (s.setPhase t v).phase u = s.phase u := by
  cases t <;> cases u <;> first | rfl | exact absurd rfl h
@[simp] theorem State.setPhase_phase_other (s : State) (t : Tone) (v : Word) : (s.setPhase t v).phase t.other = s.phase t.other :=
  s.setPhase_phase_of_ne (Tone.other_ne t) v
@[simp] theorem State.setCfg_phase (s : State) (g : CfgRegs) (u : Tone) : (s.setCfg g).phase u = s.phase u := by cases u <;> rfl
@[simp] theorem State.setBuflen_phase (s : State) (v : Word) (u : Tone) : (s.setBuflen v).phase u = s.phase u := by cases u <;> rfl
@[simp] theorem State.setCph_phase (s : State) (v : Word) (u : Tone) : (s.setCph v).phase u = s.phase u := by cases u <;> rfl
@[simp] theorem State.setToneCnt_phase (s : State) (t : Tone) (v : Word) (u : Tone) : (s.setToneCnt t v).phase u = s.phase u := by cases u <;> rfl
@[simp] theorem State.setBuf_phase (s : State) (m : Memory) (u : Tone) : (s.setBuf m).phase u = s.phase u := by cases u <;> rfl
@[simp] theorem State.setAnswer_phase (s : State) (v : Word) (u : Tone) : (s.setAnswer v).phase u = s.phase u := by cases u <;> rfl
@[simp] theorem State.raise_phase (s : State) (k : Err) (info : Byte) (u : Tone) : (s.raise k info).phase u = s.phase u := by cases u <;> rfl
@[simp] theorem State.handOver_phase (s : State) (bytes : List Byte) (u : Tone) : (s.handOver bytes).phase u = s.phase u := by cases u <;> rfl
@[simp] theorem State.accept_phase (s : State) (rest : List HostMove) (u : Tone) : (s.accept rest).phase u = s.phase u := by cases u <;> rfl

@[simp] theorem State.setCfg_capacity (s : State) (g : CfgRegs) : (s.setCfg g).capacity = s.capacity := rfl
@[simp] theorem State.setCfg_buflenTrue (s : State) (g : CfgRegs) : (s.setCfg g).buflenTrue = s.buflenTrue := rfl
@[simp] theorem State.setCph_capacity (s : State) (v : Word) : (s.setCph v).capacity = s.capacity := rfl
@[simp] theorem State.setCph_buflenTrue (s : State) (v : Word) : (s.setCph v).buflenTrue = s.buflenTrue := rfl
@[simp] theorem State.setPhase_capacity (s : State) (t : Tone) (v : Word) : (s.setPhase t v).capacity = s.capacity := rfl
@[simp] theorem State.setPhase_buflenTrue (s : State) (t : Tone) (v : Word) : (s.setPhase t v).buflenTrue = s.buflenTrue := rfl
@[simp] theorem State.setToneCnt_capacity (s : State) (t : Tone) (v : Word) : (s.setToneCnt t v).capacity = s.capacity := rfl
@[simp] theorem State.setToneCnt_buflenTrue (s : State) (t : Tone) (v : Word) : (s.setToneCnt t v).buflenTrue = s.buflenTrue := rfl
@[simp] theorem State.setBuf_capacity (s : State) (m : Memory) : (s.setBuf m).capacity = s.capacity := rfl
@[simp] theorem State.setBuf_buflenTrue (s : State) (m : Memory) : (s.setBuf m).buflenTrue = s.buflenTrue := rfl
@[simp] theorem State.setAnswer_capacity (s : State) (v : Word) : (s.setAnswer v).capacity = s.capacity := rfl
@[simp] theorem State.setAnswer_buflenTrue (s : State) (v : Word) : (s.setAnswer v).buflenTrue = s.buflenTrue := rfl
@[simp] theorem State.load_capacity (s : State) (t : Tables) (b : Tone) : (s.load t b).capacity = s.capacity := rfl
@[simp] theorem State.load_buflenTrue (s : State) (t : Tables) (b : Tone) : (s.load t b).buflenTrue = s.buflenTrue := rfl
@[simp] theorem State.raise_capacity (s : State) (k : Err) (info : Byte) : (s.raise k info).capacity = s.capacity := rfl
@[simp] theorem State.raise_buflenTrue (s : State) (k : Err) (info : Byte) : (s.raise k info).buflenTrue = s.buflenTrue := rfl
@[simp] theorem State.handOver_capacity (s : State) (bytes : List Byte) : (s.handOver bytes).capacity = s.capacity := rfl
@[simp] theorem State.accept_capacity (s : State) (rest : List HostMove) : (s.accept rest).capacity = s.capacity := rfl
@[simp] theorem State.accept_buflenTrue (s : State) (rest : List HostMove) : (s.accept rest).buflenTrue = s.buflenTrue := rfl

theorem State.phase_mark (s : State) : s.phase .mark = s.mph := rfl
theorem State.phase_space (s : State) : s.phase .space = s.sph := rfl

/-- Two states are equal if all their fields are. -/
theorem State.eq_of_fields {s t : State} (h₀ : s.caps = t.caps) (h₁ : s.cfg = t.cfg) (h₂ : s.buflen = t.buflen) (h₃ : s.cph = t.cph)
    (h₄ : s.mph = t.mph) (h₅ : s.sph = t.sph) (h₆ : s.tone = t.tone) (h₇ : s.cnt = t.cnt) (h₈ : s.mode = t.mode) (h₉ : s.err = t.err)
    (h₁₀ : s.errInfo = t.errInfo) (h₁₁ : s.tables = t.tables) (h₁₂ : s.buf = t.buf) (h₁₃ : s.bufSize = t.bufSize)
    (h₁₄ : s.taken = t.taken) (h₁₅ : s.port = t.port) (h₁₆ : s.answer = t.answer) : s = t := by
  cases s; cases t; simp_all

end Sys2Proof.Machine
end

