-- ==== Sys2Proof/Laws/Ops.lean ====
section
/-! SUPPORT. One lemma per shared operation, saying once everything it can do. -/

namespace Sys2Proof

/-- Every register has its own index, and every index its register (10 R28). -/
@[simp] theorem Reg.ofIdx_idx (r : Reg) : Reg.ofIdx r.idx = r := by cases r <;> rfl

@[simp] theorem Reg.idx_ofIdx (i : BitVec 4) : (Reg.ofIdx i).idx = i := by revert i; decide

theorem Reg.idx_injective {r q : Reg} (h : r.idx = q.idx) : r = q := by
  rw [← Reg.ofIdx_idx r, h, Reg.ofIdx_idx]

theorem Reg.idx_eq_fifteen {r : Reg} : r.idx = 15#4 ↔ r = .cmd := by cases r <;> decide

end Sys2Proof

namespace Sys2Proof.Machine

/-! ## Stores -/

theorem storeCph_ok {s t : State} {v : Nat} :
    s.storeCph v = .ok t ↔ v < 2 ^ s.caps.carrierBits ∧ t = s.setCph (BitVec.ofNat 32 v) := by
  unfold State.storeCph; split <;> simp_all [eq_comm]

theorem storePhase_ok {s t : State} {u : Tone} {v : Nat} :
    s.storePhase u v = .ok t ↔ v < 2 ^ s.caps.toneBits ∧ t = s.setPhase u (BitVec.ofNat 32 v) := by
  unfold State.storePhase; split <;> simp_all [eq_comm]

theorem storeToneCnt_ok {s t : State} {u : Tone} {v : Int} :
    s.storeToneCnt u v = .ok t ↔ (0 ≤ v ∧ v < 2 ^ 32) ∧ t = s.setToneCnt u (BitVec.ofNat 32 v.toNat) := by
  unfold State.storeToneCnt; split <;> simp_all [eq_comm]

/-! ## Tables and buffer -/

theorem readTab_ok {s : State} {t : Tone} {ch : Channel} {i c : Nat} {v : Int} :
    s.readTab t ch i c = .ok v ↔
      ∃ tab b, s.tables = some tab ∧ i < s.cfg.toneLen t ∧ c < s.cfg.carrierLen ∧ tab.at t ch i c = some b ∧ v = b.toInt := by
  unfold State.readTab
  cases hs : s.tables with
  | none => simp
  | some tab =>
    by_cases hr : i < s.cfg.toneLen t ∧ c < s.cfg.carrierLen
    · cases hb : tab.at t ch i c <;> simp [hr, hb, eq_comm]
    · simp only [if_neg hr, reduceCtorEq, false_iff]
      rintro ⟨tab', b, -, h1, h2, -⟩
      exact hr ⟨h1, h2⟩

theorem bufWrite_ok {s t : State} {off : Nat} {b : Byte} :
    s.bufWrite off b = .ok t ↔ off < s.capacity ∧ t = s.setBuf (s.buf.write off b) := by
  unfold State.bufWrite; split <;> simp_all [eq_comm]

/-- The launch premise of a FILL, where the real size of the buffer is known (70 R268). -/
theorem capacity_le_of_buflenTrue {s : State} (h : s.buflenTrue = true) {size : Nat} (hs : s.bufSize = some size) :
    s.capacity ≤ size := by
  unfold State.buflenTrue at h
  rw [hs] at h
  simpa using h

/-- `tc8` of a stored byte read as a signed integer is that byte (20 R64). -/
@[simp] theorem tc8_toInt (b : Byte) : tc8 b.toInt = b := BitVec.ofInt_toInt

/-- `tc8` loses nothing of a signed byte (00 R11). -/
theorem toInt_tc8 {x : Int} (h : -128 ≤ x) (h' : x ≤ 127) : (tc8 x).toInt = x := by
  unfold tc8
  rw [BitVec.toInt_ofInt, Int.bmod_def]
  omega

/-! ## Registers -/

theorem readReg_writeReg_same {s : State} {r : Reg} (v : Word) (h : regClass r = .configuration ∨ regClass r = .operand) :
    (s.writeReg r v).readReg r = v := by
  cases r <;> simp_all [regClass, State.writeReg, State.readReg, CfgRegs.set, State.setCfg, State.setBuflen]

theorem readReg_writeReg_ne {s : State} {r q : Reg} (v : Word) (h : q ≠ r) : (s.writeReg r v).readReg q = s.readReg q := by
  cases r <;> cases q <;> first | rfl | exact absurd rfl h

/-- A written configuration register changes no field but the configuration registers. -/
theorem writeReg_configuration {s : State} {r : Reg} (v : Word) (h : regClass r = .configuration) :
    s.writeReg r v = s.setCfg (s.cfg.set r v) := by unfold State.writeReg; rw [h]

theorem writeReg_operand {s : State} {r : Reg} (v : Word) (h : regClass r = .operand) : s.writeReg r v = s.setBuflen v := by
  unfold State.writeReg; rw [h]

/-- Writes of different configuration registers commute (42 R201). -/
theorem CfgRegs.set_comm (g : CfgRegs) {r q : Reg} (h : q ≠ r) (v u : Word) : (g.set r v).set q u = (g.set q u).set r v := by
  cases r <;> cases q <;> first | rfl | exact absurd rfl h

/-- A later write of a configuration register replaces an earlier one (42 R201). -/
theorem CfgRegs.set_set (g : CfgRegs) (r : Reg) (v u : Word) : (g.set r v).set r u = g.set r u := by cases r <;> rfl

/-! ## Outcomes -/

theorem toOutcome_next {e : Except Fault State} {t : State} : toOutcome e = .next t ↔ e = .ok t := by
  cases e <;> simp [toOutcome]

end Sys2Proof.Machine
end

