-- ==== Sys2Proof/Laws/Builder.lean ====
section
/-! SUPPORT. The validation of BUILD as a conjunction, the widths of the phase registers, the entries of the tables it fills, and what BUILD can do. -/

namespace Sys2Proof.Machine

/-- BUILD's validation passes exactly for the legal configurations (40 R122). -/
theorem firstInvalid_eq_none {g : CfgRegs} {k : Capacities} :
    g.firstInvalid k = none ↔
      (1 ≤ g.opC ∧ g.opC ≤ k.cMax) ∧ (1 ≤ g.opLm ∧ g.opLm ≤ k.lMax) ∧ (1 ≤ g.opLs ∧ g.opLs ≤ k.lMax) ∧ 1 ≤ g.opDnum ∧ 1 ≤ g.opDden
        ∧ (1 ≤ g.opA ∧ g.opA ≤ 127) ∧ 1 ≤ g.opR := by
  unfold CfgRegs.firstInvalid
  constructor
  · intro h
    repeat' split at h
    all_goals first | omega | cases h
  · intro h
    repeat' split
    all_goals first | rfl | omega

/-- The legal configurations are those BUILD's validation passes (40 R122). -/
theorem legal_iff {g : CfgRegs} {k : Capacities} : g.Legal k ↔ g.firstInvalid k = none := by
  rw [firstInvalid_eq_none]
  constructor
  · intro h
    exact ⟨h 0 (by omega), h 1 (by omega), h 2 (by omega), h 3 (by omega), h 4 (by omega), h 5 (by omega), h 6 (by omega)⟩
  · rintro ⟨h0, h1, h2, h3, h4, h5, h6⟩ i hi
    interval_cases i <;> assumption

/-- The width of a phase register is enough for its capacity. -/
theorem le_two_pow_phaseBits {x n : Nat} (hx : x ≤ n) (hx' : x ≤ 2 ^ 32) (h0 : 0 < x) : x ≤ 2 ^ phaseBits n := by
  unfold phaseBits
  rcases le_total 32 (Nat.log2 (n - 1) + 1) with h | h
  · rwa [min_eq_left h]
  · rw [min_eq_right h]
    have : n - 1 < 2 ^ (Nat.log2 (n - 1) + 1) := Nat.lt_log2_self
    omega

theorem two_pow_phaseBits_le (n : Nat) : 2 ^ phaseBits n ≤ 2 ^ 32 := Nat.pow_le_pow_right (by decide) (min_le_left _ _)

/-- An operand is below 2^31 (30 R95). -/
theorem sext32_lt (v : Word) : sext32 v < 2 ^ 31 := by
  have := BitVec.two_mul_toInt_lt (x := v)
  unfold sext32
  omega

/-- In a validated configuration the carrier cycle fits `CPH` (41 R156). -/
theorem carrierLen_bounds {g : CfgRegs} {k : Capacities} (h : g.firstInvalid k = none) :
    0 < g.carrierLen ∧ g.carrierLen ≤ 2 ^ k.carrierBits := by
  have h1 := firstInvalid_eq_none.mp h
  have h2 : g.opC < 2 ^ 31 := sext32_lt g.c
  have h3 : 0 < g.carrierLen := by simp only [CfgRegs.carrierLen]; omega
  refine ⟨h3, le_two_pow_phaseBits ?_ ?_ h3⟩ <;> simp only [CfgRegs.carrierLen] <;> omega

/-- In a validated configuration every tone cycle fits its phase register (41 R156). -/
theorem toneLen_bounds {g : CfgRegs} {k : Capacities} (h : g.firstInvalid k = none) (t : Tone) :
    0 < g.toneLen t ∧ g.toneLen t ≤ 2 ^ k.toneBits := by
  have h1 := firstInvalid_eq_none.mp h
  have h2 : g.opLm < 2 ^ 31 := sext32_lt g.lm
  have h2' : g.opLs < 2 ^ 31 := sext32_lt g.ls
  have h3 : 0 < g.toneLen t := by cases t <;> simp only [CfgRegs.toneLen] <;> omega
  refine ⟨h3, le_two_pow_phaseBits ?_ ?_ h3⟩ <;> cases t <;> simp only [CfgRegs.toneLen] <;> omega

/-- A phase below a bound the register holds is read back as it was stored. -/
theorem toNat_ofNat_phase {v L n : Nat} (h : v < L) (hL : L ≤ 2 ^ phaseBits n) : (BitVec.ofNat 32 v).toNat = v := by
  rw [BitVec.toNat_ofNat, Nat.mod_eq_of_lt (h.trans_le (hL.trans (two_pow_phaseBits_le n)))]

theorem tables_get (g : CfgRegs) (t : Tone) (ch : Channel) : g.tables.get t ch = g.table t ch := by cases t <;> cases ch <;> rfl

/-- The tables are fully populated: every entry in range is the entry function's value (40 R130). -/
theorem tables_at (g : CfgRegs) (t : Tone) (ch : Channel) {s c : Nat} (hs : s < g.toneLen t) (hc : c < g.carrierLen) :
    g.tables.at t ch s c = some (tc8 (g.entry t ch s c)) := by
  simp [Tables.at, tables_get, CfgRegs.table, hs, hc]

/-- Beyond `L_t × C` a table has no entry (40 R130). -/
theorem tables_at_none (g : CfgRegs) (t : Tone) (ch : Channel) {s c : Nat} (h : ¬(s < g.toneLen t ∧ c < g.carrierLen)) :
    g.tables.at t ch s c = none := by
  by_cases hs : s < g.toneLen t
  · have hc : ¬c < g.carrierLen := fun hc => h ⟨hs, hc⟩
    simp [Tables.at, tables_get, CfgRegs.table, hs, hc]
  · simp [Tables.at, tables_get, CfgRegs.table, hs]

/-- Everything BUILD can do: discard, refuse a second build, refuse a configuration, or load the tables. -/
theorem execBuild_cases {s t : State} (h : execBuild s = .next t) :
    (s.mode = .faulted ∧ t = s) ∨ (s.mode = .ready ∧ t = s.raise .protocolViolation 2)
      ∨ (s.mode = .unbuilt ∧ ∃ k, s.cfg.firstInvalid s.caps = some k ∧ t = s.raise .configurationError k)
      ∨ (s.mode = .unbuilt ∧ s.cfg.firstInvalid s.caps = none ∧ t = s.load s.cfg.tables s.cfg.opT0) := by
  unfold execBuild at h
  cases hm : s.mode with
  | faulted => simp_all
  | ready => simp_all
  | unbuilt => cases hv : s.cfg.firstInvalid s.caps <;> simp_all

end Sys2Proof.Machine
end

