-- ==== Sys2Proof/Laws/Encoding.lean ====
section
/-! SUPPORT. The fields of the two formats (30 R92, R93): a word put together from fields has those fields, and a word is its fields. -/

namespace Sys2Proof

theorem toNat_busWord (rw : BitVec 1) (idx : BitVec 4) (data : Word) :
    (busWord rw idx data).toNat = rw.toNat * 2 ^ 36 + idx.toNat * 2 ^ 32 + data.toNat := by
  have h1 : ((rw ++ idx : BitVec (1 + 4)) ++ data : BitVec (1 + 4 + 32)).toNat
      = (rw.toNat * 2 ^ 4 + idx.toNat) * 2 ^ 32 + data.toNat := by
    rw [BitVec.toNat_append, BitVec.toNat_append, ← Nat.shiftLeft_add_eq_or_of_lt data.isLt,
      ← Nat.shiftLeft_add_eq_or_of_lt idx.isLt, Nat.shiftLeft_eq, Nat.shiftLeft_eq]
  refine Eq.trans h1 ?_
  omega

theorem toNat_cmdWord (op : BitVec 4) (arg : Count) : (cmdWord op arg).toNat = op.toNat * 2 ^ 28 + arg.toNat := by
  have h1 : (op ++ arg : BitVec (4 + 28)).toNat = op.toNat * 2 ^ 28 + arg.toNat := by
    rw [BitVec.toNat_append, ← Nat.shiftLeft_add_eq_or_of_lt arg.isLt, Nat.shiftLeft_eq]
  exact h1

theorem toNat_field {n : Nat} (w : BitVec n) (start len : Nat) :
    (w.extractLsb' start len).toNat = w.toNat / 2 ^ start % 2 ^ len := by
  rw [BitVec.extractLsb'_toNat, Nat.shiftRight_eq_div_pow]

@[simp] theorem busWord_rw (rw : BitVec 1) (idx : BitVec 4) (data : Word) : (busWord rw idx data).extractLsb' 36 1 = rw := by
  apply BitVec.eq_of_toNat_eq
  have := rw.isLt; have := idx.isLt; have := data.isLt
  rw [toNat_field, toNat_busWord]
  omega

@[simp] theorem busWord_idx (rw : BitVec 1) (idx : BitVec 4) (data : Word) : (busWord rw idx data).extractLsb' 32 4 = idx := by
  apply BitVec.eq_of_toNat_eq
  have := rw.isLt; have := idx.isLt; have := data.isLt
  rw [toNat_field, toNat_busWord]
  omega

@[simp] theorem busWord_data (rw : BitVec 1) (idx : BitVec 4) (data : Word) : (busWord rw idx data).extractLsb' 0 32 = data := by
  apply BitVec.eq_of_toNat_eq
  have := rw.isLt; have := idx.isLt; have := data.isLt
  rw [toNat_field, toNat_busWord]
  omega

@[simp] theorem cmdWord_op (op : BitVec 4) (arg : Count) : (cmdWord op arg).extractLsb' 28 4 = op := by
  apply BitVec.eq_of_toNat_eq
  have := op.isLt; have := arg.isLt
  rw [toNat_field, toNat_cmdWord]
  omega

@[simp] theorem cmdWord_arg (op : BitVec 4) (arg : Count) : (cmdWord op arg).extractLsb' 0 28 = arg := by
  apply BitVec.eq_of_toNat_eq
  have := op.isLt; have := arg.isLt
  rw [toNat_field, toNat_cmdWord]
  omega

/-- A transaction is its three fields. -/
theorem busWord_fields (w : BusWord) : busWord (w.extractLsb' 36 1) (w.extractLsb' 32 4) (w.extractLsb' 0 32) = w := by
  apply BitVec.eq_of_toNat_eq
  have := w.isLt
  rw [toNat_busWord, toNat_field, toNat_field, toNat_field]
  omega

/-- A command word is its two fields. -/
theorem cmdWord_fields (w : Word) : cmdWord (w.extractLsb' 28 4) (w.extractLsb' 0 28) = w := by
  apply BitVec.eq_of_toNat_eq
  have := w.isLt
  rw [toNat_cmdWord, toNat_field, toNat_field]
  omega

/-- Masking fields masks each of them. -/
theorem busWord_and (rw rw' : BitVec 1) (idx idx' : BitVec 4) (data data' : Word) :
    busWord rw idx data &&& busWord rw' idx' data' = busWord (rw &&& rw') (idx &&& idx') (data &&& data') :=
  (BitVec.and_append (x₁ := rw ++ idx) (x₂ := rw' ++ idx') (y₁ := data) (y₂ := data')).trans
    (congrArg (· ++ (data &&& data')) BitVec.and_append)

theorem cmdWord_and (op op' : BitVec 4) (arg arg' : Count) :
    cmdWord op arg &&& cmdWord op' arg' = cmdWord (op &&& op') (arg &&& arg') := BitVec.and_append

end Sys2Proof
end

