-- ==== Sys2Proof/Laws/Round.lean ====
section
/-! SUPPORT. The rounding of 00 R12: it is odd and monotone, it keeps integers, and it is locally constant except at the ties. -/

namespace Sys2Proof.Machine

theorem roundHaz_of_nonneg {x : ℝ} (h : 0 ≤ x) : roundHaz x = ⌊x + 1 / 2⌋ := by
  rcases h.eq_or_lt with rfl | h
  · norm_num [roundHaz]
  · simp [roundHaz, abs_of_pos h, sign_pos h]

theorem roundHaz_neg (x : ℝ) : roundHaz (-x) = -roundHaz x := by
  rcases lt_trichotomy x 0 with h | rfl | h
  · simp [roundHaz, sign_neg h, sign_pos (neg_pos.mpr h)]
  · simp [roundHaz]
  · simp [roundHaz, sign_pos h, sign_neg (neg_lt_zero.mpr h)]

theorem roundHaz_nonneg {x : ℝ} (h : 0 ≤ x) : 0 ≤ roundHaz x := by
  rw [roundHaz_of_nonneg h]; positivity

theorem roundHaz_mono {x y : ℝ} (h : x ≤ y) : roundHaz x ≤ roundHaz y := by
  rcases le_total 0 x with hx | hx
  · rw [roundHaz_of_nonneg hx, roundHaz_of_nonneg (hx.trans h)]
    exact Int.floor_le_floor (by linarith)
  · have hx' := roundHaz_nonneg (neg_nonneg.mpr hx)
    rw [roundHaz_neg] at hx'
    rcases le_total 0 y with hy | hy
    · have := roundHaz_nonneg hy
      omega
    · rw [← neg_neg x, ← neg_neg y, roundHaz_neg, roundHaz_neg (-y), roundHaz_of_nonneg (neg_nonneg.mpr hx),
        roundHaz_of_nonneg (neg_nonneg.mpr hy)]
      have : ⌊-y + 1 / 2⌋ ≤ ⌊-x + 1 / 2⌋ := Int.floor_le_floor (by linarith)
      omega

theorem roundHaz_intCast (k : ℤ) : roundHaz (k : ℝ) = k := by
  have h : ∀ n : ℤ, 0 ≤ n → roundHaz (n : ℝ) = n := fun n hn => by
    rw [roundHaz_of_nonneg (by exact_mod_cast hn), add_comm, Int.floor_add_intCast]
    norm_num
  rcases le_total 0 k with hk | hk
  · exact h k hk
  · have := h (-k) (by omega)
    push_cast at this
    rw [roundHaz_neg] at this
    omega

/-- Within less than a half of an integer, the rounding is that integer. -/
theorem roundHaz_eq_of_abs_sub_lt {x : ℝ} {k : ℤ} (h : |x - k| < 1 / 2) : roundHaz x = k := by
  have pos : ∀ (y : ℝ) (j : ℤ), 0 ≤ y → |y - j| < 1 / 2 → roundHaz y = j := fun y j hy hj => by
    rw [abs_lt] at hj
    rw [roundHaz_of_nonneg hy, Int.floor_eq_iff]
    constructor <;> linarith [hj.1, hj.2]
  rcases le_total 0 x with hx | hx
  · exact pos x k hx h
  · have := pos (-x) (-k) (by linarith) (by push_cast; rwa [show -x - -(k : ℝ) = -(x - k) by ring, abs_neg])
    rw [roundHaz_neg] at this
    omega

/-- A number that is no tie is less than a half away from its rounding. -/
theorem abs_sub_roundHaz_lt {x : ℝ} (hx : ∀ j : ℤ, |x| ≠ j + 1 / 2) : |x - roundHaz x| < 1 / 2 := by
  have pos : ∀ y : ℝ, 0 ≤ y → (∀ j : ℤ, y ≠ j + 1 / 2) → |y - roundHaz y| < 1 / 2 := fun y hy h => by
    rw [roundHaz_of_nonneg hy, abs_lt]
    have h1 := Int.floor_le (y + 1 / 2)
    have h2 := Int.lt_floor_add_one (y + 1 / 2)
    have h3 : (⌊y + 1 / 2⌋ : ℝ) ≠ y + 1 / 2 := fun e => h (⌊y + 1 / 2⌋ - 1) (by push_cast; linarith)
    have h4 := lt_of_le_of_ne h1 h3
    constructor <;> linarith
  rcases le_total 0 x with h | h
  · exact pos x h fun j => by rw [← abs_of_nonneg h]; exact hx j
  · have := pos (-x) (by linarith) fun j => by rw [← abs_of_nonpos h]; exact hx j
    rw [roundHaz_neg] at this
    push_cast at this
    rwa [show -x - -(roundHaz x : ℝ) = -(x - roundHaz x) by ring, abs_neg] at this

/-- Around a number that is no tie the rounding is constant. -/
theorem roundHaz_locally_constant {x : ℝ} (hx : ∀ j : ℤ, |x| ≠ j + 1 / 2) : ∃ d > 0, ∀ y, |y - x| ≤ d → roundHaz y = roundHaz x := by
  have h := abs_sub_roundHaz_lt hx
  refine ⟨(1 / 2 - |x - roundHaz x|) / 2, by linarith, fun y hy => roundHaz_eq_of_abs_sub_lt ?_⟩
  have := abs_sub_le y x (roundHaz x)
  linarith

end Sys2Proof.Machine
end

