-- ==== Sys2Proof/Laws/Exact.lean ====
section
/-! SUPPORT. Every rational enclosure holds its real number, the enclosures narrow to it, and `roundLimit` is `round_haz` of what they narrow
to: the evaluation of a table entry by Machine/Exact.lean is exact (log 8). -/

namespace Sys2Proof.Machine

open Filter Topology

/-! ## Enclosures -/

/-- The enclosure holds the real number `x`. -/
def Approx.Holds (a : Approx) (x : ℝ) : Prop := |x - a.mid| ≤ a.err

/-- A sequence of enclosures that all hold `x` and narrow to it. -/
structure NarrowsTo (a : Nat → Approx) (x : ℝ) : Prop where
  holds : ∀ n, (a n).Holds x
  narrows : Tendsto (fun n => ((a n).err : ℝ)) atTop (𝓝 0)

theorem NarrowsTo.scale {a : Nat → Approx} {x : ℝ} (h : NarrowsTo a x) (p q : Nat) :
    NarrowsTo (fun n => (a n).scale p q) (x * p / q) where
  holds n := by
    have h0 := h.holds n
    simp only [Approx.Holds, Approx.scale] at *
    push_cast
    rw [← sub_div, ← sub_mul, abs_div, abs_mul, Nat.abs_cast, Nat.abs_cast]
    gcongr
  narrows := by
    simpa [Approx.scale] using (h.narrows.mul_const (p : ℝ)).div_const (q : ℝ)

theorem NarrowsTo.sub {a b : Nat → Approx} {x y : ℝ} (ha : NarrowsTo a x) (hb : NarrowsTo b y) :
    NarrowsTo (fun n => (a n).sub (b n)) (x - y) where
  holds n := by
    have h1 := ha.holds n
    have h2 := hb.holds n
    simp only [Approx.Holds, Approx.sub, abs_le] at *
    push_cast
    constructor <;> linarith [h1.1, h1.2, h2.1, h2.2]
  narrows := by simpa [Approx.sub] using ha.narrows.add hb.narrows

theorem NarrowsTo.trim {a : Nat → Approx} {x : ℝ} (h : NarrowsTo a x) : NarrowsTo (fun n => (a n).trim n) x := by
  have cut : ∀ (q : Rat) (n : Nat), ((⌊q * 2 ^ (8 * n)⌋ : Int) : ℝ) / 2 ^ (8 * n) ≤ q
      ∧ (q : ℝ) ≤ ((⌊q * 2 ^ (8 * n)⌋ : Int) : ℝ) / 2 ^ (8 * n) + 1 / 2 ^ (8 * n) := fun q n => by
    have hp : (0 : ℝ) < 2 ^ (8 * n) := by positivity
    have h1 : ((⌊q * 2 ^ (8 * n)⌋ : Int) : ℝ) ≤ q * 2 ^ (8 * n) := by exact_mod_cast Int.floor_le (q * 2 ^ (8 * n))
    have h2 : (q : ℝ) * 2 ^ (8 * n) < (⌊q * 2 ^ (8 * n)⌋ : Int) + 1 := by exact_mod_cast Int.lt_floor_add_one (q * 2 ^ (8 * n))
    rw [← add_div, div_le_iff₀ hp, le_div_iff₀ hp]
    exact ⟨h1, h2.le⟩
  have hz : Tendsto (fun n : Nat => (1 / 2 ^ (8 * n) : ℝ)) atTop (𝓝 0) := by
    simpa [pow_mul, Function.comp_def] using tendsto_inv_atTop_zero.comp (tendsto_pow_atTop_atTop_of_one_lt (by norm_num : (1 : ℝ) < 2 ^ 8))
  have split : ∀ n, (((a n).trim n).err : ℝ)
      = ((⌊(a n).err * 2 ^ (8 * n)⌋ : Int) : ℝ) / 2 ^ (8 * n) + 2 * (1 / 2 ^ (8 * n)) := fun n => by
    simp only [Approx.trim]
    push_cast
    ring
  have pos : ∀ n : Nat, (0 : ℝ) ≤ 1 / 2 ^ (8 * n) := fun n => by positivity
  refine ⟨fun n => ?_, squeeze_zero (fun n => ?_) (fun n => ?_) (by simpa only [mul_zero, add_zero] using h.narrows.add (hz.const_mul 2))⟩
  · have h0 := h.holds n
    have h1 := cut (a n).mid n
    have h2 := cut (a n).err n
    simp only [Approx.Holds] at *
    rw [split n]
    simp only [Approx.trim, abs_le] at *
    push_cast
    constructor <;> linarith [h0.1, h0.2, h1.1, h1.2, h2.2, pos n]
  · have h0 : (0 : ℝ) ≤ (a n).err := (abs_nonneg _).trans (h.holds n)
    rw [split n]
    linarith [(cut (a n).err n).2, pos n]
  · rw [split n]
    linarith [(cut (a n).err n).1]

/-! ## The number π -/

theorem arctanSum_eq (k n : Nat) :
    (arctanSum k n : ℝ) = ∑ i ∈ Finset.range n, (-1) ^ i * (((k : ℝ)⁻¹) ^ (2 * i + 1) / ((2 * i + 1 : Nat) : ℝ)) := by
  induction n with
  | zero => simp [arctanSum]
  | succ n ih =>
    rw [Finset.sum_range_succ, ← ih, arctanSum]
    push_cast
    congr 1
    rw [inv_pow, div_eq_mul_inv, mul_inv, div_eq_mul_inv]
    ring

theorem arctan_terms_antitone {k : Nat} (hk : 1 < k) :
    Antitone fun i : Nat => ((k : ℝ)⁻¹) ^ (2 * i + 1) / ((2 * i + 1 : Nat) : ℝ) := by
  intro i j hij
  have h0 : (0 : ℝ) ≤ (k : ℝ)⁻¹ := by positivity
  have h1 : (k : ℝ)⁻¹ ≤ 1 := inv_le_one_of_one_le₀ (by exact_mod_cast hk.le)
  exact div_le_div₀ (by positivity) (pow_le_pow_of_le_one h0 h1 (by omega)) (by positivity) (by exact_mod_cast (by omega : 2 * i + 1 ≤ 2 * j + 1))

theorem arctan_sum_tendsto {k : Nat} (hk : 1 < k) :
    Tendsto (fun n => ∑ i ∈ Finset.range n, (-1 : ℝ) ^ i * (((k : ℝ)⁻¹) ^ (2 * i + 1) / ((2 * i + 1 : Nat) : ℝ))) atTop
      (𝓝 (Real.arctan (k : ℝ)⁻¹)) := by
  have hk' : (1 : ℝ) < k := by exact_mod_cast hk
  have h := (Real.hasSum_arctan (x := (k : ℝ)⁻¹) (by
    rw [Real.norm_eq_abs, abs_of_pos (by positivity)]; exact inv_lt_one_of_one_lt₀ hk')).tendsto_sum_nat
  refine h.congr fun n => Finset.sum_congr rfl fun i _ => ?_
  rw [mul_div_assoc]

theorem arctanApprox_narrowsTo {k : Nat} (hk : 1 < k) : NarrowsTo (arctanApprox k) (Real.arctan (k : ℝ)⁻¹) := by
  have ht := arctan_sum_tendsto hk
  have ha := arctan_terms_antitone hk
  refine ⟨fun n => ?_, ?_⟩
  · have h1 := ha.alternating_series_le_tendsto ht n
    have h2 := ha.tendsto_le_alternating_series ht n
    rw [← arctanSum_eq] at h1 h2
    simp only [Approx.Holds, arctanApprox]
    push_cast
    rw [abs_of_nonneg (by linarith)]
    linarith
  · have e : ∀ n, ((arctanApprox k n).err : ℝ) = (arctanSum k (2 * n + 1) : ℝ) - (arctanSum k (2 * n) : ℝ) := fun n => by
      simp [arctanApprox]
    simp only [e, arctanSum_eq]
    have h2 : Tendsto (fun n : Nat => 2 * n) atTop atTop := tendsto_atTop_mono (fun n => (by omega : n ≤ 2 * n)) tendsto_id
    have h3 : Tendsto (fun n : Nat => 2 * n + 1) atTop atTop := tendsto_atTop_mono (fun n => (by omega : n ≤ 2 * n + 1)) tendsto_id
    simpa using (ht.comp h3).sub (ht.comp h2)

theorem piApprox_narrowsTo : NarrowsTo piApprox Real.pi := by
  have h := ((arctanApprox_narrowsTo (k := 5) (by norm_num)).scale 16 1).sub
    ((arctanApprox_narrowsTo (k := 239) (by norm_num)).scale 4 1)
  have e : Real.arctan ((5 : Nat) : ℝ)⁻¹ * (16 : Nat) / (1 : Nat) - Real.arctan ((239 : Nat) : ℝ)⁻¹ * (4 : Nat) / (1 : Nat) = Real.pi := by
    have := Real.four_mul_arctan_inv_5_sub_arctan_inv_239
    push_cast
    linarith
  rw [e] at h
  exact h

/-! ## Sine and cosine -/

/-- A term of the exponential series, and the sum of those before it. -/
theorem expSeries_eq (m : Rat) (n : Nat) :
    (((m : ℝ) : ℂ) * Complex.I) ^ n / (n.factorial : ℂ)
        = ((((expSeries m n).1.1 : Rat) : ℝ) : ℂ) + ((((expSeries m n).1.2 : Rat) : ℝ) : ℂ) * Complex.I
      ∧ ∑ i ∈ Finset.range n, (((m : ℝ) : ℂ) * Complex.I) ^ i / (i.factorial : ℂ)
        = ((((expSeries m n).2.1 : Rat) : ℝ) : ℂ) + ((((expSeries m n).2.2 : Rat) : ℝ) : ℂ) * Complex.I := by
  induction n with
  | zero => simp [expSeries]
  | succ n ih =>
    obtain ⟨ih1, ih2⟩ := ih
    have hn : ((n : ℂ) + 1) ≠ 0 := by exact_mod_cast Nat.succ_ne_zero n
    have e : (((m : ℝ) : ℂ) * Complex.I) ^ (n + 1) / ((n + 1).factorial : ℂ)
        = (((m : ℝ) : ℂ) * Complex.I) ^ n / (n.factorial : ℂ) * (((m : ℝ) : ℂ) * Complex.I) / ((n : ℂ) + 1) := by
      rw [pow_succ, Nat.factorial_succ]
      push_cast
      rw [mul_comm ((n : ℂ) + 1), div_mul_eq_mul_div, div_div]
    constructor
    · rw [e, ih1, expSeries]
      push_cast
      rw [add_mul, mul_assoc _ Complex.I, mul_left_comm Complex.I, Complex.I_mul_I]
      ring
    · rw [Finset.sum_range_succ, ih2, ih1, expSeries]
      push_cast
      ring

/-- The sine, or the cosine for Q. -/
noncomputable def trigReal (isQ : Bool) (x : ℝ) : ℝ := if isQ then Real.cos x else Real.sin x

theorem abs_trigReal_sub_le (isQ : Bool) (x y : ℝ) : |trigReal isQ x - trigReal isQ y| ≤ |x - y| := by
  cases isQ
  · simpa [trigReal] using Real.abs_sin_sub_sin_le x y
  · simpa [trigReal] using Real.abs_cos_sub_cos_le x y

theorem abs_trigReal_le_one (isQ : Bool) (x : ℝ) : |trigReal isQ x| ≤ 1 := by
  cases isQ
  · simpa [trigReal] using Real.abs_sin_le_one x
  · simpa [trigReal] using Real.abs_cos_le_one x

/-- A bound on an exponential is one on the cosine and on the sine. -/
theorem cos_sin_of_exp {y u v e : ℝ} (h : ‖Complex.exp (y * Complex.I) - (u + v * Complex.I)‖ ≤ e) :
    |Real.cos y - u| ≤ e ∧ |Real.sin y - v| ≤ e := by
  rw [Complex.exp_mul_I, ← Complex.ofReal_cos, ← Complex.ofReal_sin] at h
  exact ⟨by simpa [Complex.cos_ofReal_re, Complex.sin_ofReal_re] using (Complex.abs_re_le_norm _).trans h,
    by simpa [Complex.cos_ofReal_re, Complex.sin_ofReal_re] using (Complex.abs_im_le_norm _).trans h⟩

/-- What the series leave out. -/
theorem trigReal_series (isQ : Bool) (m : Rat) {n : Nat} (h : 2 * |m| ≤ n + 1) :
    |trigReal isQ m - (if isQ then (expSeries m n).2.1 else (expSeries m n).2.2 : Rat)| ≤ |(m : ℝ)| ^ n / n.factorial * 2 := by
  have hn : ‖((m : ℝ) : ℂ) * Complex.I‖ = |(m : ℝ)| := by simp
  have h' : 2 * |(m : ℝ)| ≤ n + 1 := by exact_mod_cast h
  have hb := Complex.exp_bound' (x := ((m : ℝ) : ℂ) * Complex.I) (n := n) (by
    rw [hn, div_le_iff₀ (by positivity)]
    push_cast
    linarith)
  rw [(expSeries_eq m n).2, hn] at hb
  cases isQ
  · exact (cos_sin_of_exp hb).2
  · exact (cos_sin_of_exp hb).1

theorem NarrowsTo.series {a : Nat → Approx} {x : ℝ} (h : NarrowsTo a x) (isQ : Bool) :
    NarrowsTo (fun n => trigSeries isQ n (a n)) (trigReal isQ x) := by
  refine ⟨fun n => ?_, ?_⟩
  · unfold trigSeries
    split
    · rename_i hs
      have h0 := h.holds n
      have h1 := trigReal_series isQ (a n).mid hs
      have h2 := abs_trigReal_sub_le isQ x ((a n).mid : ℝ)
      simp only [Approx.Holds] at *
      refine (abs_sub_le _ (trigReal isQ (a n).mid) _).trans ?_
      push_cast
      linarith
    · simpa [Approx.Holds] using abs_trigReal_le_one isQ x
  · -- the midpoints are bounded, so the series is used from some term on, and what it leaves out vanishes
    have hb : ∀ᶠ n in atTop, |((a n).mid : ℝ)| ≤ |x| + 1 := by
      filter_upwards [h.narrows.eventually (gt_mem_nhds zero_lt_one)] with n hn
      have h0 := h.holds n
      simp only [Approx.Holds] at h0
      have := abs_sub_abs_le_abs_sub ((a n).mid : ℝ) x
      rw [abs_sub_comm] at h0
      linarith
    have hl : ∀ᶠ n : Nat in atTop, 2 * (|x| + 1) ≤ (n : ℝ) :=
      tendsto_natCast_atTop_atTop.eventually_ge_atTop _
    have hz : Tendsto (fun n : Nat => ((a n).err : ℝ) + (|x| + 1) ^ n / n.factorial * 2) atTop (𝓝 0) := by
      simpa using h.narrows.add ((FloorSemiring.tendsto_pow_div_factorial_atTop (|x| + 1)).mul_const 2)
    refine squeeze_zero' (Eventually.of_forall fun n => ?_) ?_ hz
    · have h0 : (0 : ℝ) ≤ (a n).err := (abs_nonneg _).trans (h.holds n)
      unfold trigSeries
      split
      · push_cast; positivity
      · simp
    · filter_upwards [hb, hl] with n hbn hln
      have hs : 2 * |(a n).mid| ≤ (n : Rat) + 1 := by
        have : 2 * |((a n).mid : ℝ)| ≤ (n : ℝ) + 1 := by linarith
        exact_mod_cast this
      rw [trigSeries, if_pos hs]
      push_cast
      gcongr

theorem NarrowsTo.trig {a : Nat → Approx} {x : ℝ} (h : NarrowsTo a x) (isQ : Bool) :
    NarrowsTo (fun n => trigApprox isQ n (a n)) (trigReal isQ x) := (h.trim.series isQ).trim

/-! ## Rounding -/

theorem roundHazRat_eq (q : Rat) : roundHazRat q = roundHaz (q : ℝ) := by
  unfold roundHazRat
  have e : ∀ p : Rat, ⌊p + 1 / 2⌋ = ⌊(p : ℝ) + 1 / 2⌋ := fun p => by
    rw [← Rat.floor_cast (α := ℝ)]; push_cast; rfl
  split
  · rename_i h
    rw [roundHaz_of_nonneg (by exact_mod_cast h), e]
  · rename_i h
    rw [show (q : ℝ) = -((-q : Rat) : ℝ) by push_cast; ring, roundHaz_neg, roundHaz_of_nonneg (by exact_mod_cast (by linarith : (0 : Rat) ≤ -q)), e]

/-- What a decided enclosure says is the rounding. -/
theorem decided_eq {a : Approx} {x : ℝ} (h : a.Holds x) {k : Int} (hk : a.decided = some k) : roundHaz x = k := by
  unfold Approx.decided at hk
  split at hk
  · rename_i he
    obtain rfl := Option.some.inj hk
    rw [roundHazRat_eq, roundHazRat_eq] at he
    rw [roundHazRat_eq]
    simp only [Approx.Holds, abs_le] at h
    refine le_antisymm (roundHaz_mono ?_) (he ▸ roundHaz_mono ?_) <;> push_cast <;> linarith [h.1, h.2]
  · cases hk

/-- Enclosures that narrow to a number that is no tie decide it. -/
theorem eventually_decided {a : Nat → Approx} {x : ℝ} (h : NarrowsTo a x) (hx : ∀ j : ℤ, |x| ≠ j + 1 / 2) :
    ∃ n, (a n).decided ≠ none := by
  obtain ⟨d, hd, hc⟩ := roundHaz_locally_constant hx
  obtain ⟨n, hn⟩ := (h.narrows.eventually (gt_mem_nhds (half_pos hd))).exists
  refine ⟨n, ?_⟩
  have h0 := h.holds n
  simp only [Approx.Holds, abs_le] at h0
  unfold Approx.decided
  rw [if_pos]
  · simp
  · rw [roundHazRat_eq, roundHazRat_eq]
    rw [hc ((_ - _ : Rat) : ℝ) (by rw [abs_le]; push_cast; constructor <;> linarith [h0.1, h0.2]),
      hc ((_ + _ : Rat) : ℝ) (by rw [abs_le]; push_cast; constructor <;> linarith [h0.1, h0.2])]

/-- Of a tie, a narrow enclosure gives the rounding. -/
theorem tie_eq {a : Approx} {x : ℝ} (h : a.Holds x) {j : ℤ} (hj : |x| = j + 1 / 2) {k : Int} (hk : a.tie = some k) : roundHaz x = k := by
  unfold Approx.tie at hk
  split at hk
  · rename_i he
    have he' : (a.err : ℝ) < ((1 / 8 : Rat) : ℝ) := by exact_mod_cast he
    push_cast at he'
    obtain rfl := Option.some.inj hk
    have hj0 : (0 : ℝ) ≤ j := by
      have : (-1 : ℝ) < j := by linarith [abs_nonneg x]
      have : (-1 : ℤ) < j := by exact_mod_cast this
      exact_mod_cast (by omega : (0 : ℤ) ≤ j)
    simp only [Approx.Holds, abs_le] at h
    have key : ∀ y : ℝ, (j : ℝ) + 1 / 2 ≤ y → y < j + 1 → roundHaz y = j + 1 := fun y h1 h2 => by
      rw [roundHaz_of_nonneg (by linarith), Int.floor_eq_iff]
      push_cast
      constructor <;> linarith
    rcases abs_cases x with ⟨hx, hs⟩ | ⟨hx, hs⟩
    · rw [hx] at hj
      have hm : 0 ≤ a.mid := by
        have : (0 : ℝ) ≤ a.mid := by linarith [h.1, h.2]
        exact_mod_cast this
      rw [if_pos hm, roundHazRat_eq, key x hj.ge (by linarith), key _ (by push_cast; linarith [h.1, h.2]) (by push_cast; linarith [h.1, h.2])]
    · rw [hx] at hj
      have hm : ¬0 ≤ a.mid := by
        have : (a.mid : ℝ) < 0 := by linarith [h.1, h.2]
        exact not_le.mpr (by exact_mod_cast this)
      rw [if_neg hm, roundHazRat_eq, ← neg_neg x, ← neg_neg ((a.mid - a.err : Rat) : ℝ), roundHaz_neg, roundHaz_neg (-(_ : ℝ)),
        key (-x) hj.ge (by linarith), key _ (by push_cast; linarith [h.1, h.2]) (by push_cast; linarith [h.1, h.2])]
  · cases hk

/-! ## The search -/

/-- What a search gives, the function gives. -/
theorem firstSome_some {α : Type} {f : Nat → Option α} {n : Nat} {v : α} (h : firstSome f n = some v) : ∃ m, f m = some v := by
  refine firstSome.partial_correctness f (fun _ r => ∃ m, f m = some r) ?_ n v h
  intro search ih n r hr
  split at hr
  · rename_i w hw
    obtain rfl := Option.some.inj hr
    exact ⟨n, hw⟩
  · exact ih _ _ hr

/-- A search finds something if there is something to find. -/
theorem firstSome_isSome {α : Type} {f : Nat → Option α} {n : Nat} (k : Nat) (h : f (n + k) ≠ none) : firstSome f n ≠ none := by
  induction k generalizing n with
  | zero =>
    rw [firstSome]
    cases hf : f n with
    | none => exact absurd hf h
    | some v => simp
  | succ k ih =>
    rw [firstSome]
    cases hf : f n with
    | none => exact ih (by rwa [show n + 1 + k = n + (k + 1) by omega])
    | some v => simp

/-- `roundLimit` is `round_haz` of what the enclosures narrow to. -/
theorem roundLimit_eq {a : Nat → Approx} {x : ℝ} (h : NarrowsTo a x) : roundLimit a = roundHaz x := by
  unfold roundLimit
  split
  · rename_i k hk
    obtain ⟨m, hm⟩ := firstSome_some hk
    exact (decided_eq (h.holds m) hm).symm
  · rename_i hnone
    have hx : ¬∀ j : ℤ, |x| ≠ j + 1 / 2 := fun hx => by
      obtain ⟨n, hn⟩ := eventually_decided h hx
      exact firstSome_isSome (n := 0) n (by simpa using hn) hnone
    obtain ⟨j, hj⟩ := not_forall_not.mp hx
    obtain ⟨n, hn⟩ := (h.narrows.eventually (gt_mem_nhds (by norm_num : (0 : ℝ) < 1 / 8))).exists
    have hn' : (a n).err < 1 / 8 := by
      have : ((a n).err : ℝ) < ((1 / 8 : Rat) : ℝ) := by push_cast; exact hn
      exact_mod_cast this
    have hs : firstSome (fun n => (a n).tie) 0 ≠ none :=
      firstSome_isSome n (by rw [Approx.tie, Nat.zero_add, if_pos hn']; simp)
    obtain ⟨k, hk⟩ := Option.ne_none_iff_exists'.mp hs
    obtain ⟨m, hm⟩ := firstSome_some hk
    rw [hk, Option.getD_some]
    exact (tie_eq (h.holds m) hj hm).symm

end Sys2Proof.Machine
end

