-- ==== Sys2Proof/Laws/FixedPoint.lean ====
section
/-! SUPPORT. What a `Ball` means, and that every fixed-point operation keeps it: if the operands hold real numbers, the result holds the
real result. -/

namespace Sys2Proof.Machine

/-- The ball holds the real number `x`: it lies within `rad / 2^256` of `mid / 2^256`. -/
def Ball.Holds (b : Ball) (x : ℝ) : Prop := |x * fxOne - b.mid| ≤ b.rad

theorem fxOne_eq : (fxOne : ℝ) = 2 ^ 256 := by norm_num [fxOne]

theorem fxOne_pos : (0 : ℝ) < fxOne := by rw [fxOne_eq]; positivity

theorem Ball.holds_one : Ball.one.Holds 1 := by simp [Ball.Holds, Ball.one]

theorem Ball.holds_add {a b : Ball} {x y : ℝ} (ha : a.Holds x) (hb : b.Holds y) : (a.add b).Holds (x + y) := by
  simp only [Ball.Holds, Ball.add, abs_le] at *
  push_cast
  constructor <;> linarith [ha.1, ha.2, hb.1, hb.2]

theorem Ball.holds_sub {a b : Ball} {x y : ℝ} (ha : a.Holds x) (hb : b.Holds y) : (a.sub b).Holds (x - y) := by
  simp only [Ball.Holds, Ball.sub, abs_le] at *
  push_cast
  constructor <;> linarith [ha.1, ha.2, hb.1, hb.2]

theorem Ball.holds_scale {a : Ball} {x : ℝ} (k : Nat) (ha : a.Holds x) : (a.scale k).Holds (k * x) := by
  simp only [Ball.Holds, Ball.scale] at *
  push_cast
  rw [show (k : ℝ) * x * fxOne - k * a.mid = k * (x * fxOne - a.mid) by ring, abs_mul, abs_of_nonneg (Nat.cast_nonneg k)]
  exact mul_le_mul_of_nonneg_left ha (Nat.cast_nonneg k)

/-- Rounding an integer quotient down moves it by at most one. -/
theorem abs_sub_floor_div (m : Int) {n : Nat} (hn : 0 < n) : |((m : ℝ) / n) - ((m / (n : Int) : Int) : ℝ)| ≤ 1 := by
  have hn' : (0 : ℝ) < n := by exact_mod_cast hn
  have e : (m : ℝ) = (m % n : Int) + n * ((m / (n : Int) : Int) : ℝ) := by exact_mod_cast (Int.emod_add_mul_ediv m n).symm
  have e2 : (0 : ℝ) ≤ (m % n : Int) := by exact_mod_cast Int.emod_nonneg m (show (n : Int) ≠ 0 by omega)
  have e3 : ((m % n : Int) : ℝ) ≤ n := by exact_mod_cast (Int.emod_lt_of_pos m (show (0 : Int) < n by omega)).le
  have e4 : (m : ℝ) / n - ((m / (n : Int) : Int) : ℝ) = ((m % n : Int) : ℝ) / n := by
    rw [eq_div_iff hn'.ne', sub_mul, div_mul_cancel₀ _ hn'.ne']
    linarith
  rw [e4, abs_of_nonneg (by positivity), div_le_one hn']
  exact e3

/-- A natural quotient rounded down, plus one, is at least the quotient. -/
theorem div_le_natDiv_add_one (r n : Nat) (hn : 0 < n) : (r : ℝ) / n ≤ (r / n : Nat) + 1 := by
  have hn' : (0 : ℝ) < n := by exact_mod_cast hn
  rw [div_le_iff₀ hn']
  have h : r < n * (r / n + 1) := Nat.lt_mul_div_succ r hn
  have : (r : ℝ) < n * ((r / n : Nat) + 1) := by exact_mod_cast h
  linarith

theorem Ball.holds_divNat {a : Ball} {x : ℝ} {n : Nat} (hn : 0 < n) (ha : a.Holds x) : (a.divNat n).Holds (x / n) := by
  have hn' : (0 : ℝ) < n := by exact_mod_cast hn
  simp only [Ball.Holds, Ball.divNat] at *
  have h1 := abs_sub_floor_div a.mid hn
  have h2 := div_le_natDiv_add_one a.rad n hn
  have h3 : |x * fxOne / n - (a.mid : ℝ) / n| ≤ a.rad / n := by
    rw [← sub_div, abs_div, abs_of_pos hn']
    exact div_le_div_of_nonneg_right ha hn'.le
  have h4 := abs_sub_le (x * fxOne / n) ((a.mid : ℝ) / n) ((a.mid / (n : Int) : Int) : ℝ)
  rw [show x / n * (fxOne : ℝ) = x * fxOne / n by ring]
  push_cast at *
  linarith

/-- How far a product is from the product of two approximations. -/
theorem abs_mul_sub_mul_le {X Y a b r q : ℝ} (hx : |X - a| ≤ r) (hy : |Y - b| ≤ q) :
    |X * Y - a * b| ≤ |a| * q + |b| * r + r * q := by
  have e : X * Y - a * b = a * (Y - b) + b * (X - a) + (X - a) * (Y - b) := by ring
  have hr : 0 ≤ r := (abs_nonneg _).trans hx
  rw [e]
  refine (abs_add_three _ _ _).trans ?_
  rw [abs_mul, abs_mul, abs_mul]
  gcongr

theorem Ball.holds_mul {a b : Ball} {x y : ℝ} (ha : a.Holds x) (hb : b.Holds y) : (a.mul b).Holds (x * y) := by
  have hS := fxOne_pos
  have hS' : 0 < fxOne := by exact_mod_cast hS
  simp only [Ball.Holds, Ball.mul] at *
  have h0 := abs_mul_sub_mul_le ha hb
  have h1 := abs_sub_floor_div (a.mid * b.mid) hS'
  have h2 := div_le_natDiv_add_one (a.mid.natAbs * b.rad + b.mid.natAbs * a.rad + a.rad * b.rad) fxOne hS'
  have h3 : |x * fxOne * (y * fxOne) / fxOne - (a.mid * b.mid : ℝ) / fxOne|
      ≤ (|(a.mid : ℝ)| * b.rad + |(b.mid : ℝ)| * a.rad + a.rad * b.rad) / fxOne := by
    rw [← sub_div, abs_div, abs_of_pos hS]
    exact div_le_div_of_nonneg_right h0 hS.le
  have h4 := abs_sub_le (x * y * fxOne) ((a.mid * b.mid : ℝ) / fxOne) ((a.mid * b.mid / (fxOne : Int) : Int) : ℝ)
  rw [show x * fxOne * (y * fxOne) / (fxOne : ℝ) = x * y * fxOne by field_simp] at h3
  push_cast [Nat.cast_natAbs] at *
  linarith

/-- The real polynomial that `Ball.horner` follows. -/
noncomputable def hornerReal (t : ℝ) : List Nat → ℝ
  | [] => 1
  | d :: ds => 1 - t * hornerReal t ds / d

theorem Ball.holds_horner {b : Ball} {t : ℝ} (hb : b.Holds t) :
    ∀ ds : List Nat, (∀ d ∈ ds, 0 < d) → (b.horner ds).Holds (hornerReal t ds)
  | [], _ => Ball.holds_one
  | d :: ds, h =>
    Ball.holds_sub Ball.holds_one
      (Ball.holds_divNat (h d List.mem_cons_self)
        (Ball.holds_mul hb (Ball.holds_horner hb ds fun e he => h e (List.mem_cons_of_mem d he))))

end Sys2Proof.Machine
end

