-- ==== Sys2Proof/Laws/Trig.lean ====
section
/-! SUPPORT. The fixed-point sine and cosine are sound for every real argument, and `piBall` holds π: the error bounds of log 8. -/

namespace Sys2Proof.Machine

/-- A pair of balls holds the sine and the cosine of an angle. -/
def HoldsSinCos (p : Ball × Ball) (x : ℝ) : Prop := p.1.Holds (Real.sin x) ∧ p.2.Holds (Real.cos x)

theorem Ball.Holds.widen {b : Ball} {x y : ℝ} (h : b.Holds x) (hxy : |y - x| ≤ 1 / 2 ^ 256) : Ball.Holds ⟨b.mid, b.rad + 1⟩ y := by
  simp only [Ball.Holds] at *
  have h1 : |y * fxOne - x * fxOne| ≤ 1 := by
    rw [← sub_mul, abs_mul, abs_of_pos fxOne_pos, fxOne_eq]
    calc _ ≤ (1 / 2 ^ 256 : ℝ) * 2 ^ 256 := by gcongr
      _ = 1 := by norm_num
  have h2 := abs_sub_le (y * fxOne) (x * fxOne) b.mid
  push_cast
  linarith

theorem Ball.holds_of_abs_le_one {x : ℝ} (h : |x| ≤ 1) : Ball.Holds ⟨0, fxOne⟩ x := by
  simp only [Ball.Holds, Int.cast_zero, sub_zero, abs_mul, abs_of_pos fxOne_pos]
  exact mul_le_of_le_one_left fxOne_pos.le h

theorem Ball.Holds.abs_le {b : Ball} {x : ℝ} (h : b.Holds x) : |x| * fxOne ≤ b.mid.natAbs + b.rad := by
  simp only [Ball.Holds] at h
  have h1 := abs_sub_abs_le_abs_sub (x * fxOne) (b.mid : ℝ)
  rw [abs_mul, abs_of_pos fxOne_pos] at h1
  rw [Nat.cast_natAbs, Int.cast_abs]
  linarith

/-- The first 24 terms of the exponential series, even and odd ones apart. -/
theorem exp_series (z : ℂ) (t : ℂ) (hz : z ^ 2 = -t) :
    ∑ m ∈ Finset.range 24, z ^ m / (m.factorial : ℂ)
      = (1 - t * (1 - t * (1 - t * (1 - t * (1 - t * (1 - t * (1 - t * (1 - t * (1 - t * (1 - t * (1 - t * 1 / 462) / 380) / 306)
          / 240) / 182) / 132) / 90) / 56) / 30) / 12) / 2)
        + z * (1 - t * (1 - t * (1 - t * (1 - t * (1 - t * (1 - t * (1 - t * (1 - t * (1 - t * (1 - t * (1 - t * 1 / 506) / 420) / 342)
          / 272) / 210) / 156) / 110) / 72) / 42) / 20) / 6) := by
  have ht : t = -z ^ 2 := by rw [hz]; ring
  subst ht
  simp only [Finset.sum_range_succ, Finset.sum_range_zero, Nat.factorial]
  push_cast
  ring

theorem hornerReal_cos (t : ℝ) : hornerReal t cosDivisors
    = 1 - t * (1 - t * (1 - t * (1 - t * (1 - t * (1 - t * (1 - t * (1 - t * (1 - t * (1 - t * (1 - t * 1 / 462) / 380) / 306)
          / 240) / 182) / 132) / 90) / 56) / 30) / 12) / 2 := by
  simp [cosDivisors, hornerReal]

theorem hornerReal_sin (t : ℝ) : hornerReal t sinDivisors
    = 1 - t * (1 - t * (1 - t * (1 - t * (1 - t * (1 - t * (1 - t * (1 - t * (1 - t * (1 - t * (1 - t * 1 / 506) / 420) / 342)
          / 272) / 210) / 156) / 110) / 72) / 42) / 20) / 6 := by
  simp [sinDivisors, hornerReal]

/-- What the series leave out, for an angle of magnitude at most 1/256. -/
theorem exp_series_error {y : ℝ} (hy : |y| ≤ 1 / 256) :
    ‖Complex.exp (y * Complex.I) - ((hornerReal (y * y) cosDivisors : ℝ) + y * Complex.I * (hornerReal (y * y) sinDivisors : ℝ))‖
      ≤ 1 / 2 ^ 256 := by
  have hn : ‖(y : ℂ) * Complex.I‖ = |y| := by simp
  have hb := Complex.exp_bound (x := (y : ℂ) * Complex.I) (by rw [hn]; linarith) (n := 24) (by norm_num)
  rw [exp_series ((y : ℂ) * Complex.I) ((y : ℂ) * y) (by rw [mul_pow, Complex.I_sq]; ring), hn] at hb
  rw [hornerReal_cos, hornerReal_sin]
  push_cast
  refine hb.trans ?_
  calc |y| ^ 24 * (((24 : Nat).succ : ℝ) * (((24 : Nat).factorial : ℝ) * (24 : Nat))⁻¹)
      ≤ (1 / 256) ^ 24 * (((24 : Nat).succ : ℝ) * (((24 : Nat).factorial : ℝ) * (24 : Nat))⁻¹) := by gcongr
    _ ≤ 1 / 2 ^ 256 := by norm_num [Nat.factorial]

theorem sinCosSmall_sound {b : Ball} {y : ℝ} (hb : b.Holds y) : HoldsSinCos (sinCosSmall b) y := by
  unfold sinCosSmall
  split
  · rename_i h
    have hy : |y| ≤ 1 / 256 := by
      have h1 := hb.abs_le
      have h2 : (256 : ℝ) * (b.mid.natAbs + b.rad) ≤ fxOne := by exact_mod_cast h
      rw [le_div_iff₀ (by norm_num)]
      have := fxOne_pos
      by_contra hc
      have : (1 : ℝ) * fxOne < |y| * 256 * fxOne := mul_lt_mul_of_pos_right (not_le.mp hc) this
      nlinarith
    have he := exp_series_error hy
    rw [Complex.exp_mul_I, ← Complex.ofReal_cos, ← Complex.ofReal_sin] at he
    have hre := (Complex.abs_re_le_norm _).trans he
    have him := (Complex.abs_im_le_norm _).trans he
    simp [Complex.cos_ofReal_re, Complex.sin_ofReal_re] at hre him
    have hsq := Ball.holds_mul hb hb
    refine ⟨Ball.Holds.widen (Ball.holds_mul hb (Ball.holds_horner hsq sinDivisors (by decide))) (by simpa using him),
      Ball.Holds.widen (Ball.holds_horner hsq cosDivisors (by decide)) (by simpa using hre)⟩
  · exact ⟨Ball.holds_of_abs_le_one (Real.abs_sin_le_one y), Ball.holds_of_abs_le_one (Real.abs_cos_le_one y)⟩

theorem doubleAngle_sound : ∀ (k : Nat) {p : Ball × Ball} {x : ℝ}, HoldsSinCos p x → HoldsSinCos (doubleAngle k p) (2 ^ k * x)
  | 0, p, x, h => by simpa [doubleAngle] using h
  | k + 1, p, x, h => by
    have hs : Ball.Holds ((p.1.mul p.2).scale 2) (Real.sin (2 * x)) := by
      rw [Real.sin_two_mul, mul_assoc]
      exact_mod_cast Ball.holds_scale 2 (Ball.holds_mul h.1 h.2)
    have hc : Ball.Holds (Ball.one.sub ((p.1.mul p.1).scale 2)) (Real.cos (2 * x)) := by
      rw [show Real.cos (2 * x) = 1 - (2 : Nat) * (Real.sin x * Real.sin x) by
        rw [Real.cos_two_mul, Real.cos_sq']; push_cast; ring]
      exact Ball.holds_sub Ball.holds_one (Ball.holds_scale 2 (Ball.holds_mul h.1 h.1))
    rw [show (2 : ℝ) ^ (k + 1) * x = 2 ^ k * (2 * x) by ring]
    exact doubleAngle_sound k (p := ((p.1.mul p.2).scale 2, Ball.one.sub ((p.1.mul p.1).scale 2))) ⟨hs, hc⟩

/-- The fixed-point sine and cosine hold the real ones. -/
theorem sinCos_sound {b : Ball} {x : ℝ} (hb : b.Holds x) : HoldsSinCos (sinCos b) x := by
  have h := doubleAngle_sound (halvings b)
    (sinCosSmall_sound (Ball.holds_divNat (n := 2 ^ halvings b) (by positivity) hb))
  push_cast at h
  rwa [mul_div_cancel₀ _ (by positivity)] at h

theorem cos_pos_of_ball {b : Ball} {x : ℝ} (hb : b.Holds x) (h : (sinCos b).2.rad < (sinCos b).2.mid) : 0 < Real.cos x := by
  have h1 := (sinCos_sound hb).2
  simp only [Ball.Holds, abs_le] at h1
  have h2 : (((sinCos b).2.rad : Int) : ℝ) < (sinCos b).2.mid := by exact_mod_cast h
  push_cast at h2
  have h3 : 0 < Real.cos x * fxOne := by linarith [h1.1]
  exact pos_of_mul_pos_left h3 fxOne_pos.le

theorem cos_neg_of_ball {b : Ball} {x : ℝ} (hb : b.Holds x) (h : (sinCos b).2.mid < -(sinCos b).2.rad) : Real.cos x < 0 := by
  have h1 := (sinCos_sound hb).2
  simp only [Ball.Holds, abs_le] at h1
  have h2 : ((sinCos b).2.mid : ℝ) < -(((sinCos b).2.rad : Int) : ℝ) := by exact_mod_cast h
  push_cast at h2
  have h3 : Real.cos x * fxOne < 0 := by linarith [h1.2]
  exact neg_of_mul_neg_left h3 fxOne_pos.le

/-- An exact dyadic number. -/
theorem Ball.holds_exact (m : Int) : Ball.Holds ⟨m, 0⟩ ((m : ℝ) / fxOne) := by
  simp [Ball.Holds, div_mul_cancel₀ _ fxOne_pos.ne']

/-- `piBall` holds π: the cosine is positive just below half of its lower end and negative just above half of its upper end. -/
theorem piBall_holds : piBall.Holds Real.pi := by
  have hS := fxOne_pos
  have hlo : 0 < Real.cos (((piBall.mid - piBall.rad + 1) / 2 : Int) / fxOne : ℝ) :=
    cos_pos_of_ball (Ball.holds_exact _) (by decide +kernel)
  have hhi : Real.cos (((piBall.mid + piBall.rad) / 2 : Int) / fxOne : ℝ) < 0 :=
    cos_neg_of_ball (Ball.holds_exact _) (by decide +kernel)
  have h1 : (((piBall.mid - piBall.rad + 1) / 2 : Int) / fxOne : ℝ) < Real.pi / 2 := by
    by_contra hc
    refine absurd (Real.cos_nonpos_of_pi_div_two_le_of_le (not_lt.mp hc) ?_) (not_le.mpr hlo)
    have : (((piBall.mid - piBall.rad + 1) / 2 : Int) / fxOne : ℝ) ≤ 2 := by norm_num [piBall, fxOne]
    linarith [Real.pi_gt_three]
  have h2 : Real.pi / 2 < (((piBall.mid + piBall.rad) / 2 : Int) / fxOne : ℝ) := by
    by_contra hc
    refine absurd (Real.cos_nonneg_of_neg_pi_div_two_le_of_le ?_ (not_lt.mp hc)) (not_le.mpr hhi)
    have : (0 : ℝ) ≤ (((piBall.mid + piBall.rad) / 2 : Int) / fxOne : ℝ) := by norm_num [piBall, fxOne]
    linarith [Real.pi_pos]
  rw [div_lt_iff₀ hS] at h1
  rw [lt_div_iff₀ hS] at h2
  have e1 : piBall.mid - piBall.rad ≤ 2 * ((piBall.mid - piBall.rad + 1) / 2) := by omega
  have e2 : 2 * ((piBall.mid + piBall.rad) / 2) ≤ piBall.mid + piBall.rad := by omega
  have e1' : ((piBall.mid : ℝ) - piBall.rad) ≤ 2 * ((piBall.mid - piBall.rad + 1) / 2 : Int) := by exact_mod_cast e1
  have e2' : 2 * (((piBall.mid + piBall.rad) / 2 : Int) : ℝ) ≤ piBall.mid + piBall.rad := by exact_mod_cast e2
  simp only [Ball.Holds, abs_le]
  constructor <;> linarith

end Sys2Proof.Machine
end

