-- ==== Sys2Proof/Laws/Entry.lean ====
section
/-! SUPPORT. The evaluation of a table entry against the real-number form of 40 R124: the two rounded ends of the fixed-point value enclose the
exact one, the exact ties are rounded away from zero, and the rounded value is `round_haz` of the exact one for every operand (log 8). -/

namespace Sys2Proof.Machine

/-! ## Rounding -/

theorem floor_half_fx (m : Int) : ⌊(m / fxOne : ℝ) + 1 / 2⌋ = (2 * m + fxOne) / (2 * fxOne) := by
  have e : (m / fxOne : ℝ) + 1 / 2 = ((2 * m + fxOne : Int) : ℝ) / ((2 * fxOne : Nat) : ℝ) := by
    have := fxOne_pos
    push_cast
    field_simp
  rw [e, Int.floor_div_natCast, Int.floor_intCast]
  push_cast
  rfl

/-- The fixed-point rounding is `round_haz`. -/
theorem roundHazFx_eq (m : Int) : roundHazFx m = roundHaz (m / fxOne) := by
  have hS := fxOne_pos
  unfold roundHazFx
  split
  · rename_i h
    have h' : (0 : ℝ) ≤ m := by exact_mod_cast h
    rw [roundHaz_of_nonneg (by positivity), floor_half_fx]
  · rename_i h
    have h' : (0 : ℝ) ≤ (-m : Int) := by exact_mod_cast (by omega : (0 : Int) ≤ -m)
    have e : (m / fxOne : ℝ) = -((-m : Int) / fxOne : ℝ) := by push_cast; ring
    rw [e, roundHaz_neg, roundHaz_of_nonneg (by positivity), floor_half_fx]
    congr 2
    ring

/-! ## The two rounded ends -/

/-- The fixed-point argument holds the real one. -/
theorem entryPhase_holds {C L dnum dden : Nat} (hC : 0 < C) (hL : 0 < L) (hd : 0 < dden) (s c : Nat) :
    (entryPhase C L dnum dden s c).Holds (entryArg C L dnum dden s c) := by
  have h1 := Ball.holds_divNat hC (Ball.holds_scale (2 * c) piBall_holds)
  have h2 := (sinCos_sound (Ball.holds_divNat hL (Ball.holds_scale (2 * s) piBall_holds))).2
  have h3 := Ball.holds_sub h1 (Ball.holds_divNat hd (Ball.holds_scale dnum h2))
  have e : entryArg C L dnum dden s c
      = ((2 * c : Nat) : ℝ) * Real.pi / C - dnum * Real.cos (((2 * s : Nat) : ℝ) * Real.pi / L) / dden := by
    rw [entryArg]
    push_cast
    rw [show (c : ℝ) * (2 * Real.pi) = 2 * c * Real.pi by ring, show (s : ℝ) * (2 * Real.pi) = 2 * s * Real.pi by ring,
      div_mul_eq_mul_div]
  rw [e, entryPhase]
  exact h3

/-- The fixed-point value holds the unrounded value of 40 R124. -/
theorem entryValue_holds (isQ : Bool) {C L dnum dden : Nat} (hC : 0 < C) (hL : 0 < L) (hd : 0 < dden) (A s c : Nat) :
    (entryValue isQ C L dnum dden A s c).Holds (entryExact isQ C L dnum dden A s c) := by
  have h := sinCos_sound (entryPhase_holds (dnum := dnum) hC hL hd s c)
  cases isQ
  · simpa only [entryValue, entryExact, Bool.false_eq_true, if_false] using Ball.holds_scale A h.1
  · simpa only [entryValue, entryExact, if_true] using Ball.holds_scale A h.2

theorem abs_entryExact_le (isQ : Bool) (C L dnum dden A s c : Nat) : |entryExact isQ C L dnum dden A s c| ≤ A := by
  unfold entryExact
  rw [abs_mul, Nat.abs_cast]
  refine mul_le_of_le_one_right (Nat.cast_nonneg A) ?_
  cases isQ
  · simpa using Real.abs_sin_le_one _
  · simpa using Real.abs_cos_le_one _

theorem entryLow_le (isQ : Bool) {C L dnum dden : Nat} (hC : 0 < C) (hL : 0 < L) (hd : 0 < dden) (A s c : Nat) :
    entryLow isQ C L dnum dden A s c ≤ roundHaz (entryExact isQ C L dnum dden A s c) := by
  have h := entryValue_holds isQ (dnum := dnum) hC hL hd A s c
  have hA := abs_entryExact_le isQ C L dnum dden A s c
  simp only [Ball.Holds, abs_le] at h hA
  unfold entryLow
  rw [roundHazFx_eq]
  refine roundHaz_mono ?_
  rw [div_le_iff₀ fxOne_pos]
  push_cast
  refine max_le (by linarith [h.2]) ?_
  nlinarith [fxOne_pos, hA.1]

theorem le_entryHigh (isQ : Bool) {C L dnum dden : Nat} (hC : 0 < C) (hL : 0 < L) (hd : 0 < dden) (A s c : Nat) :
    roundHaz (entryExact isQ C L dnum dden A s c) ≤ entryHigh isQ C L dnum dden A s c := by
  have h := entryValue_holds isQ (dnum := dnum) hC hL hd A s c
  have hA := abs_entryExact_le isQ C L dnum dden A s c
  simp only [Ball.Holds, abs_le] at h hA
  unfold entryHigh
  rw [roundHazFx_eq]
  refine roundHaz_mono ?_
  rw [le_div_iff₀ fxOne_pos]
  push_cast
  refine le_min (by linarith [h.1]) ?_
  nlinarith [fxOne_pos, hA.2]

/-! ## The exact ties -/

/-- At a quarter or three quarters of the cycle the modulating cosine is zero. -/
theorem cos_quarterCycle {L s : Nat} (hL : 0 < L) (h : quarterCycle L s = true) : Real.cos (s * (2 * Real.pi) / L) = 0 := by
  have hL' : (L : ℝ) ≠ 0 := by positivity
  simp only [quarterCycle, Bool.or_eq_true, beq_iff_eq] at h
  rcases h with h | h
  · have e : (4 : ℝ) * s = L := by exact_mod_cast h
    rw [show (s : ℝ) * (2 * Real.pi) / L = Real.pi / 2 by
      rw [show (s : ℝ) = L / 4 by linarith]; field_simp; ring, Real.cos_pi_div_two]
  · have e : (4 : ℝ) * s = 3 * L := by exact_mod_cast h
    have e' : (s : ℝ) = 3 * L / 4 := by linarith
    rw [show (s : ℝ) * (2 * Real.pi) / L = Real.pi / 2 + Real.pi by rw [e']; field_simp; ring, Real.cos_add_pi,
      Real.cos_pi_div_two, neg_zero]

theorem sin_halfSign {C c : Nat} (hC : 0 < C) {sign : Int} (h : halfSign false C c = some sign) :
    Real.sin (c * (2 * Real.pi) / C) = sign * (1 / 2) ∧ (sign = 1 ∨ sign = -1) := by
  have hC' : (C : ℝ) ≠ 0 := by positivity
  have angle : ∀ k : Nat, 12 * c = k * C → (c : ℝ) * (2 * Real.pi) / C = k * (Real.pi / 6) := fun k hk => by
    have e : (12 : ℝ) * c = k * C := by exact_mod_cast hk
    have e' : (c : ℝ) = k * C / 12 := by linarith
    rw [e']; field_simp; ring
  simp only [halfSign, Bool.false_eq_true, if_false, Bool.or_eq_true, beq_iff_eq] at h
  split at h
  · rename_i hk
    obtain rfl : 1 = sign := by simpa using h
    refine ⟨?_, Or.inl rfl⟩
    rcases hk with hk | hk
    · rw [angle 1 (by omega), Nat.cast_one, one_mul, Real.sin_pi_div_six]; norm_num
    · rw [angle 5 hk, show ((5 : Nat) : ℝ) * (Real.pi / 6) = Real.pi - Real.pi / 6 by push_cast; ring, Real.sin_pi_sub,
        Real.sin_pi_div_six]; norm_num
  · split at h
    · rename_i hk
      obtain rfl : -1 = sign := by simpa using h
      refine ⟨?_, Or.inr rfl⟩
      rcases hk with hk | hk
      · rw [angle 7 hk, show ((7 : Nat) : ℝ) * (Real.pi / 6) = Real.pi / 6 + Real.pi by push_cast; ring, Real.sin_add_pi,
          Real.sin_pi_div_six]; norm_num
      · rw [angle 11 hk, show ((11 : Nat) : ℝ) * (Real.pi / 6) = 2 * Real.pi - Real.pi / 6 by push_cast; ring,
          Real.sin_two_pi_sub, Real.sin_pi_div_six]; norm_num
    · simp at h

theorem cos_halfSign {C c : Nat} (hC : 0 < C) {sign : Int} (h : halfSign true C c = some sign) :
    Real.cos (c * (2 * Real.pi) / C) = sign * (1 / 2) ∧ (sign = 1 ∨ sign = -1) := by
  have hC' : (C : ℝ) ≠ 0 := by positivity
  have angle : ∀ k : Nat, 6 * c = k * C → (c : ℝ) * (2 * Real.pi) / C = k * (Real.pi / 3) := fun k hk => by
    have e : (6 : ℝ) * c = k * C := by exact_mod_cast hk
    have e' : (c : ℝ) = k * C / 6 := by linarith
    rw [e']; field_simp; ring
  simp only [halfSign, if_true, Bool.or_eq_true, beq_iff_eq] at h
  split at h
  · rename_i hk
    obtain rfl : 1 = sign := by simpa using h
    refine ⟨?_, Or.inl rfl⟩
    rcases hk with hk | hk
    · rw [angle 1 (by omega), Nat.cast_one, one_mul, Real.cos_pi_div_three]; norm_num
    · rw [angle 5 hk, show ((5 : Nat) : ℝ) * (Real.pi / 3) = 2 * Real.pi - Real.pi / 3 by push_cast; ring, Real.cos_two_pi_sub,
        Real.cos_pi_div_three]; norm_num
  · split at h
    · rename_i hk
      obtain rfl : -1 = sign := by simpa using h
      refine ⟨?_, Or.inr rfl⟩
      rcases hk with hk | hk
      · rw [angle 2 hk, show ((2 : Nat) : ℝ) * (Real.pi / 3) = Real.pi - Real.pi / 3 by push_cast; ring, Real.cos_pi_sub,
          Real.cos_pi_div_three]; norm_num
      · rw [angle 4 hk, show ((4 : Nat) : ℝ) * (Real.pi / 3) = Real.pi / 3 + Real.pi by push_cast; ring, Real.cos_add_pi,
          Real.cos_pi_div_three]; norm_num
    · simp at h

theorem roundHaz_half (A : Nat) : roundHaz ((A : ℝ) * (1 / 2)) = ((A + 1) / 2 : Nat) := by
  rw [roundHaz_of_nonneg (by positivity), show (A : ℝ) * (1 / 2) + 1 / 2 = ((A + 1 : Nat) : ℤ) / ((2 : Nat) : ℝ) by push_cast; ring,
    Int.floor_div_natCast, Int.floor_intCast]
  rfl

/-- The exact ties: half of `A`, away from zero. -/
theorem roundHaz_tie {isQ : Bool} {C L dnum dden A s c : Nat} (hC : 0 < C) (hL : 0 < L) (hq : quarterCycle L s = true) {sign : Int}
    (h : halfSign isQ C c = some sign) :
    roundHaz (entryExact isQ C L dnum dden A s c) = sign * ((A + 1) / 2 : Nat) := by
  have harg : entryArg C L dnum dden s c = c * (2 * Real.pi) / C := by
    simp [entryArg, cos_quarterCycle hL hq]
  have key : entryExact isQ C L dnum dden A s c = A * (sign * (1 / 2)) ∧ (sign = 1 ∨ sign = -1) := by
    cases isQ
    · obtain ⟨e, hs⟩ := sin_halfSign hC h
      exact ⟨by simp [entryExact, harg, e], hs⟩
    · obtain ⟨e, hs⟩ := cos_halfSign hC h
      exact ⟨by simp [entryExact, harg, e], hs⟩
  rw [key.1]
  rcases key.2 with rfl | rfl
  · push_cast
    rw [one_mul, roundHaz_half, one_mul]
    push_cast
    rfl
  · push_cast
    rw [show (A : ℝ) * (-1 * (1 / 2)) = -(A * (1 / 2)) by ring, roundHaz_neg, roundHaz_half]
    push_cast
    ring

/-! ## The entry is exact -/

/-- The enclosures of the argument narrow to it. -/
theorem phaseApprox_narrowsTo (C L dnum dden s c : Nat) :
    NarrowsTo (phaseApprox C L dnum dden s c) (entryArg C L dnum dden s c) := by
  have h := (piApprox_narrowsTo.scale (2 * c) C).sub (((piApprox_narrowsTo.scale (2 * s) L).trig true).scale dnum dden)
  have e : Real.pi * (2 * c : Nat) / C - trigReal true (Real.pi * (2 * s : Nat) / L) * dnum / dden = entryArg C L dnum dden s c := by
    rw [entryArg, trigReal, if_pos rfl]
    push_cast
    rw [show Real.pi * (2 * c) = (c : ℝ) * (2 * Real.pi) by ring, show Real.pi * (2 * s) = (s : ℝ) * (2 * Real.pi) by ring]
    ring
  rw [e] at h
  exact h

/-- The enclosures of the unrounded value narrow to it. -/
theorem valueApprox_narrowsTo (isQ : Bool) (C L dnum dden A s c : Nat) :
    NarrowsTo (valueApprox isQ C L dnum dden A s c) (entryExact isQ C L dnum dden A s c) := by
  have h := ((phaseApprox_narrowsTo C L dnum dden s c).trig isQ).scale A 1
  have e : trigReal isQ (entryArg C L dnum dden s c) * A / (1 : Nat) = entryExact isQ C L dnum dden A s c := by
    rw [entryExact, trigReal, Nat.cast_one, div_one, mul_comm]
  rw [e] at h
  exact h

/-- The rounded value is `round_haz` of the unrounded one, for every operand (40 R128). -/
theorem entryRounded_eq (isQ : Bool) {C L dnum dden : Nat} (hC : 0 < C) (hL : 0 < L) (hd : 0 < dden) (A s c : Nat) :
    entryRounded isQ C L dnum dden A s c = roundHaz (entryExact isQ C L dnum dden A s c) := by
  unfold entryRounded
  split
  · rename_i sign hs
    split at hs
    · rename_i hq
      exact (roundHaz_tie hC hL hq hs).symm
    · cases hs
  · simp only []
    split
    · rename_i he
      exact le_antisymm (entryLow_le isQ hC hL hd A s c) (he ▸ le_entryHigh isQ hC hL hd A s c)
    · exact roundLimit_eq (valueApprox_narrowsTo isQ C L dnum dden A s c)

end Sys2Proof.Machine
end

