-- ==== Sys2Proof/Laws/HostAccess.lean ====
section
/-! SUPPORT. What WRREG and a reserved command can do. -/

namespace Sys2Proof.Machine

/-- Everything a WRREG can do: discard, store a configuration register, store `BUFLEN`, or be refused by class and mode. -/
theorem execWrreg_cases {r : Reg} {v : Word} {s t : State} (h : execWrreg r v s = .next t) :
    (s.mode = .faulted ∧ t = s)
      ∨ (s.mode = .unbuilt ∧ regClass r = .configuration ∧ t = s.setCfg (s.cfg.set r v))
      ∨ (s.mode ≠ .faulted ∧ r = .buflen ∧ t = s.setBuflen v)
      ∨ (s.mode ≠ .faulted ∧ t = s.raise .protocolViolation 3) := by
  unfold execWrreg at h
  cases hm : s.mode <;> cases r <;>
    simp_all [regClass, RegClass.writableIn, State.writeReg]

/-- Everything a reserved command can do: be discarded, or raise ProtocolViolation(0). -/
theorem execReservedCmd_cases {w : Word} {s t : State} (h : execReservedCmd w s = .next t) :
    (s.mode = .faulted ∧ t = s) ∨ (s.mode ≠ .faulted ∧ t = s.raise .protocolViolation 0) := by
  unfold execReservedCmd at h
  split at h <;> simp_all

end Sys2Proof.Machine
end

