-- ==== Sys2Proof/Laws/PerInstr.lean ====
section
/-! SUPPORT. Statements about every operation as syntax, one lemma per constructor: each well-formed operation is encoded on its own row
of the opcode table (30 R96). -/

namespace Sys2Proof.Laws.OnItsRow

/-- The mask of an operation's row (30 R96). -/
def rowMask : Instr → BusWord
  | .rdreg _ => 0x1000000000
  | .build => 0x1FFFFFFFFF
  | .fill _ => 0x1FF0000000
  | .reservedCmd _ => 0x1F00000000
  | .wrreg _ _ => 0x1000000000

/-- The match value of an operation's row (30 R96). -/
def rowMatch : Instr → BusWord
  | .rdreg _ => 0x0000000000
  | .build => 0x1F10000000
  | .fill _ => 0x1F20000000
  | .reservedCmd _ => 0x1F00000000
  | .wrreg _ _ => 0x1000000000

/-- A well-formed operation's word has its row's match value under its row's mask. -/
def Statement (i : Instr) : Prop := i.WellFormed → encode i &&& rowMask i = rowMatch i

theorem rdreg (r : Reg) : Statement (.rdreg r) := fun _ => by cases r <;> decide

theorem build : Statement .build := fun _ => by decide

theorem fill (n : Count) : Statement (.fill n) := fun _ => by
  have e1 : rowMask (.fill n) = busWord 1 15 (cmdWord 15 0) := by rw [rowMask]; decide
  have e2 : rowMatch (.fill n) = busWord 1 15 (cmdWord 2 0) := by rw [rowMatch]; decide
  rw [e1, e2, encode, busWord_and, cmdWord_and]
  simp

theorem reservedCmd (word : Word) : Statement (.reservedCmd word) := fun _ => by
  have e1 : rowMask (.reservedCmd word) = busWord 1 15 0 := by rw [rowMask]; decide
  have e2 : rowMatch (.reservedCmd word) = busWord 1 15 0 := by rw [rowMatch]; decide
  rw [e1, e2, encode, busWord_and]
  simp

theorem wrreg (r : Reg) (v : Word) : Statement (.wrreg r v) := fun _ => by
  have e1 : rowMask (.wrreg r v) = busWord 1 0 0 := by rw [rowMask]; decide
  have e2 : rowMatch (.wrreg r v) = busWord 1 0 0 := by rw [rowMatch]; decide
  rw [e1, e2, encode, busWord_and]
  simp

end Sys2Proof.Laws.OnItsRow
end

