-- ==== Sys2Proof/Laws/Synthesizer.lean ====
section
/-! SUPPORT. What the micro-operations of FILL can do (if one answers a state, then ...), and that they complete in range. -/

namespace Sys2Proof.Machine

/-! ## Phases -/

/-- The wrap-around is the remainder (41 R156). -/
theorem wrapSucc_eq_mod {p L : Nat} (h : p < L) : wrapSucc p L = (p + 1) % L := by
  unfold wrapSucc
  split
  · rename_i h1
    exact (Nat.mod_eq_of_lt h1).symm
  · rw [show p + 1 = L by omega, Nat.mod_self]

theorem wrapSucc_lt {p L : Nat} (h : p < L) : wrapSucc p L < L := by
  unfold wrapSucc
  split <;> omega

/-- A translated phase is in the range of the other tone (41 R160). -/
theorem translate_lt {L M p : Nat} (h : p < L) (hM : 0 < M) : M * p / L < M := by
  rw [Nat.div_lt_iff_lt_mul (by omega)]
  exact Nat.mul_lt_mul_of_pos_left h hM

/-! ## EMIT -/

/-- The state after pair `i` with the sample bytes `bI`, `bQ` (41 R152, R153). -/
def State.afterEmit (s : State) (i : Nat) (bI bQ : Byte) : State :=
  ((s.setBuf ((s.buf.write (2 * i) bI).write (2 * i + 1) bQ)).setCph (BitVec.ofNat 32 (wrapSucc s.cph.toNat s.cfg.carrierLen))).setPhase
    s.tone (BitVec.ofNat 32 (wrapSucc (s.phase s.tone).toNat (s.cfg.toneLen s.tone)))

/-- Everything an EMIT can do: both reads are in range, both writes are below the capacity, and the state is as 41 R152, R153 say. -/
theorem emit_ok {i : Nat} {s t : State} (h : emit i s = .ok t) :
    ∃ tab bI bQ, s.tables = some tab
      ∧ tab.at s.tone .I (s.phase s.tone).toNat s.cph.toNat = some bI
      ∧ tab.at s.tone .Q (s.phase s.tone).toNat s.cph.toNat = some bQ
      ∧ (s.phase s.tone).toNat < s.cfg.toneLen s.tone ∧ s.cph.toNat < s.cfg.carrierLen
      ∧ 2 * i + 1 < s.capacity
      ∧ wrapSucc s.cph.toNat s.cfg.carrierLen < 2 ^ s.caps.carrierBits
      ∧ wrapSucc (s.phase s.tone).toNat (s.cfg.toneLen s.tone) < 2 ^ s.caps.toneBits
      ∧ t = s.afterEmit i bI bQ := by
  unfold emit at h
  split at h
  · simp at h
  · rename_i vI hI
    split at h
    · simp at h
    · rename_i vQ hQ
      unfold emitPair at h
      split at h
      · simp at h
      · rename_i s₁ h₁
        split at h
        · simp at h
        · rename_i s₂ h₂
          split at h
          · simp at h
          · rename_i s₃ h₃
            obtain ⟨tab, bI, ht, hp, hc, hbI, rfl⟩ := readTab_ok.mp hI
            obtain ⟨tab', bQ, ht', -, -, hbQ, rfl⟩ := readTab_ok.mp hQ
            obtain rfl : tab = tab' := Option.some.inj (ht.symm.trans ht')
            obtain ⟨h1, rfl⟩ := bufWrite_ok.mp h₁
            obtain ⟨h2, rfl⟩ := bufWrite_ok.mp h₂
            obtain ⟨h3, rfl⟩ := storeCph_ok.mp h₃
            obtain ⟨h4, rfl⟩ := storePhase_ok.mp h
            simp only [State.setBuf_capacity] at h2
            exact ⟨tab, bI, bQ, ht, hbI, hbQ, hp, hc, h2, h3, h4, by simp [State.afterEmit, State.setBuf]⟩

/-- An EMIT whose phases are in range and whose pair fits the buffer completes (41 R152: no fault is possible). -/
theorem emit_completes {i : Nat} {s : State} {tab : Tables} (h : s.InRange tab) (ht : s.tables = some tab)
    (hcap : 2 * i + 1 < s.capacity) :
    emit i s = .ok (s.afterEmit i (tc8 (s.cfg.entry s.tone .I (s.phase s.tone).toNat s.cph.toNat))
      (tc8 (s.cfg.entry s.tone .Q (s.phase s.tone).toNat s.cph.toNat))) := by
  obtain ⟨hv, rfl, hc, hm, hs⟩ := h
  have hp : (s.phase s.tone).toNat < s.cfg.toneLen s.tone := by cases hq : s.tone <;> simp_all [State.phase]
  have hr : ∀ ch, s.readTab s.tone ch (s.phase s.tone).toNat s.cph.toNat
      = .ok (tc8 (s.cfg.entry s.tone ch (s.phase s.tone).toNat s.cph.toNat)).toInt :=
    fun ch => readTab_ok.mpr ⟨_, _, ht, hp, hc, tables_at s.cfg s.tone ch hp hc, rfl⟩
  have hw1 := (wrapSucc_lt hc).trans_le (carrierLen_bounds hv).2
  have hw2 := (wrapSucc_lt hp).trans_le (toneLen_bounds hv s.tone).2
  unfold emit
  simp only [hr]
  unfold emitPair
  rw [bufWrite_ok.mpr ⟨by omega, rfl⟩]
  simp only []
  rw [bufWrite_ok.mpr ⟨by simpa using hcap, rfl⟩]
  simp only []
  rw [storeCph_ok.mpr ⟨by simpa using hw1, rfl⟩]
  simp only []
  rw [storePhase_ok.mpr ⟨by simpa using hw2, rfl⟩]
  simp [State.afterEmit, State.setBuf]

/-! ## What a FILL leaves alone -/

/-- Every field no micro-operation of FILL writes has the same value in both states (41 R151 to R162). -/
structure SameOutsideFill (s t : State) : Prop where
  caps    : t.caps = s.caps
  cfg     : t.cfg = s.cfg
  buflen  : t.buflen = s.buflen
  mode    : t.mode = s.mode
  err     : t.err = s.err
  errInfo : t.errInfo = s.errInfo
  tables  : t.tables = s.tables
  bufSize : t.bufSize = s.bufSize
  taken   : t.taken = s.taken
  port    : t.port = s.port
  answer  : t.answer = s.answer

theorem SameOutsideFill.refl (s : State) : SameOutsideFill s s := ⟨rfl, rfl, rfl, rfl, rfl, rfl, rfl, rfl, rfl, rfl, rfl⟩

theorem SameOutsideFill.trans {s t u : State} (h : SameOutsideFill s t) (h' : SameOutsideFill t u) : SameOutsideFill s u :=
  ⟨h'.caps.trans h.caps, h'.cfg.trans h.cfg, h'.buflen.trans h.buflen, h'.mode.trans h.mode, h'.err.trans h.err, h'.errInfo.trans h.errInfo,
    h'.tables.trans h.tables, h'.bufSize.trans h.bufSize, h'.taken.trans h.taken, h'.port.trans h.port, h'.answer.trans h.answer⟩

theorem SameOutsideFill.capacity {s t : State} (h : SameOutsideFill s t) : t.capacity = s.capacity := by
  unfold State.capacity; rw [h.buflen]

theorem SameOutsideFill.buflenTrue {s t : State} (h : SameOutsideFill s t) : t.buflenTrue = s.buflenTrue := by
  unfold State.buflenTrue; rw [h.bufSize, h.capacity]

theorem afterEmit_same (s : State) (i : Nat) (bI bQ : Byte) : SameOutsideFill s (s.afterEmit i bI bQ) :=
  ⟨rfl, rfl, rfl, rfl, rfl, rfl, rfl, rfl, rfl, rfl, rfl⟩

@[simp] theorem afterEmit_tone (s : State) (i : Nat) (bI bQ : Byte) : (s.afterEmit i bI bQ).tone = s.tone := rfl
@[simp] theorem afterEmit_cnt (s : State) (i : Nat) (bI bQ : Byte) : (s.afterEmit i bI bQ).cnt = s.cnt := rfl
@[simp] theorem afterEmit_cfg (s : State) (i : Nat) (bI bQ : Byte) : (s.afterEmit i bI bQ).cfg = s.cfg := rfl
@[simp] theorem afterEmit_cph (s : State) (i : Nat) (bI bQ : Byte) :
    (s.afterEmit i bI bQ).cph = BitVec.ofNat 32 (wrapSucc s.cph.toNat s.cfg.carrierLen) := rfl
@[simp] theorem afterEmit_buf (s : State) (i : Nat) (bI bQ : Byte) :
    (s.afterEmit i bI bQ).buf = (s.buf.write (2 * i) bI).write (2 * i + 1) bQ := rfl
@[simp] theorem afterEmit_phase (s : State) (i : Nat) (bI bQ : Byte) :
    (s.afterEmit i bI bQ).phase s.tone = BitVec.ofNat 32 (wrapSucc (s.phase s.tone).toNat (s.cfg.toneLen s.tone)) :=
  State.setPhase_phase _ _ _
@[simp] theorem afterEmit_phase_other (s : State) (i : Nat) (bI bQ : Byte) :
    (s.afterEmit i bI bQ).phase s.tone.other = s.phase s.tone.other := by
  simp [State.afterEmit]

/-- The range of every phase, said for both tones at once. -/
theorem inRange_iff {s : State} {tab : Tables} :
    s.InRange tab ↔ s.cfg.firstInvalid s.caps = none ∧ tab = s.cfg.tables ∧ s.cph.toNat < s.cfg.carrierLen
      ∧ ∀ u, (s.phase u).toNat < s.cfg.toneLen u := by
  refine ⟨fun ⟨h1, h2, h3, h4, h5⟩ => ⟨h1, h2, h3, fun u => by cases u <;> assumption⟩,
    fun ⟨h1, h2, h3, h4⟩ => ⟨h1, h2, h3, h4 .mark, h4 .space⟩⟩

/-- EMIT keeps the phases in range (41 R163). -/
theorem afterEmit_inRange {s : State} {tab : Tables} (h : s.InRange tab) (i : Nat) (bI bQ : Byte) :
    (s.afterEmit i bI bQ).InRange tab := by
  rw [inRange_iff] at *
  obtain ⟨hv, ht, hc, hp⟩ := h
  refine ⟨hv, ht, ?_, fun u => ?_⟩
  · rw [afterEmit_cph, afterEmit_cfg, toNat_ofNat_phase (wrapSucc_lt hc) (carrierLen_bounds hv).2]
    exact wrapSucc_lt hc
  · rw [afterEmit_cfg]
    rcases Tone.eq_or_eq_other s.tone u with rfl | rfl
    · rw [afterEmit_phase, toNat_ofNat_phase (wrapSucc_lt (hp _)) (toneLen_bounds hv _).2]
      exact wrapSucc_lt (hp _)
    · rw [afterEmit_phase_other]
      exact hp _

/-- After EMIT, the carrier phase and the active phase are one further, modulo their cycle lengths. -/
theorem afterEmit_phases {s : State} {tab : Tables} (h : s.InRange tab) (i : Nat) (bI bQ : Byte) :
    (s.afterEmit i bI bQ).cph.toNat = (s.cph.toNat + 1) % s.cfg.carrierLen
      ∧ ((s.afterEmit i bI bQ).phase s.tone).toNat = ((s.phase s.tone).toNat + 1) % s.cfg.toneLen s.tone := by
  obtain ⟨hv, -, hc, hp⟩ := inRange_iff.mp h
  constructor
  · rw [afterEmit_cph, toNat_ofNat_phase (wrapSucc_lt hc) (carrierLen_bounds hv).2, wrapSucc_eq_mod hc]
  · rw [afterEmit_phase, toNat_ofNat_phase (wrapSucc_lt (hp _)) (toneLen_bounds hv _).2,
      wrapSucc_eq_mod (hp _)]

/-! ## The EMIT loop -/

/-- What every EMIT loop leaves alone: the fields of `SameOutsideFill`, the tone, the counter, the inactive phase, the bytes outside the
pairs it writes, and the canonical form. -/
theorem emitLoop_frame {k i : Nat} {s t : State} (h : emitLoop k i s = .ok t) :
    SameOutsideFill s t ∧ t.tone = s.tone ∧ t.cnt = s.cnt ∧ t.phase s.tone.other = s.phase s.tone.other
      ∧ (∀ off, off < 2 * i ∨ 2 * (i + k) ≤ off → t.buf.read off = s.buf.read off)
      ∧ (s.buf.wf = true → t.buf.wf = true) := by
  induction k generalizing i s with
  | zero =>
    obtain rfl : s = t := Except.ok.inj h
    exact ⟨.refl s, rfl, rfl, rfl, fun _ _ => rfl, id⟩
  | succ k ih =>
    unfold emitLoop at h
    split at h
    · simp at h
    · rename_i s' hs
      obtain ⟨tab, bI, bQ, -, -, -, -, -, -, -, -, rfl⟩ := emit_ok hs
      obtain ⟨h1, h2, h3, h4, h5, h6⟩ := ih h
      refine ⟨(afterEmit_same s i bI bQ).trans h1, h2, h3, by simpa using h4, fun off ho => ?_, fun hw => ?_⟩
      · rw [h5 off (by omega), afterEmit_buf, Memory.read_write_ne _ (by omega), Memory.read_write_ne _ (by omega)]
      · exact h6 (Memory.wf_write (Memory.wf_write hw _ _) _ _)

/-- In range and within the capacity the loop completes, in range again. -/
theorem emitLoop_completes {k i : Nat} {s : State} {tab : Tables} (h : s.InRange tab) (ht : s.tables = some tab)
    (hcap : 2 * (i + k) ≤ s.capacity) : ∃ t, emitLoop k i s = .ok t ∧ t.InRange tab := by
  induction k generalizing i s with
  | zero => exact ⟨s, rfl, h⟩
  | succ k ih =>
    unfold emitLoop
    rw [emit_completes h ht (by omega)]
    exact ih (afterEmit_inRange h i _ _) ht (by rw [(afterEmit_same s i _ _).capacity]; omega)

/-- The closed form of the EMIT loop: the phases after it, and the samples of each pair (41 R157). -/
theorem emitLoop_closed {k i : Nat} {s t : State} {tab : Tables} (h : s.InRange tab) (ht : s.tables = some tab)
    (hl : emitLoop k i s = .ok t) :
    t.cph.toNat = (s.cph.toNat + k) % s.cfg.carrierLen
      ∧ (t.phase s.tone).toNat = ((s.phase s.tone).toNat + k) % s.cfg.toneLen s.tone
      ∧ ∀ j < k, ∃ bI bQ,
          tab.at s.tone .I (((s.phase s.tone).toNat + j) % s.cfg.toneLen s.tone) ((s.cph.toNat + j) % s.cfg.carrierLen) = some bI
          ∧ tab.at s.tone .Q (((s.phase s.tone).toNat + j) % s.cfg.toneLen s.tone) ((s.cph.toNat + j) % s.cfg.carrierLen) = some bQ
          ∧ t.buf.read (2 * (i + j)) = some bI ∧ t.buf.read (2 * (i + j) + 1) = some bQ := by
  induction k generalizing i s with
  | zero =>
    obtain rfl : s = t := Except.ok.inj hl
    obtain ⟨-, -, hc, hp⟩ := inRange_iff.mp h
    exact ⟨(Nat.mod_eq_of_lt hc).symm, (Nat.mod_eq_of_lt (hp _)).symm, fun j hj => absurd hj (Nat.not_lt_zero j)⟩
  | succ k ih =>
    obtain ⟨-, -, hc, hp⟩ := inRange_iff.mp h
    unfold emitLoop at hl
    split at hl
    · simp at hl
    · rename_i s' hs
      obtain ⟨tab', bI, bQ, ht', hI, hQ, -, -, -, -, -, rfl⟩ := emit_ok hs
      obtain rfl : tab = tab' := Option.some.inj (ht.symm.trans ht')
      obtain ⟨e1, e2⟩ := afterEmit_phases h i bI bQ
      obtain ⟨h1, h2, h3⟩ := ih (afterEmit_inRange h i bI bQ) ht hl
      simp only [afterEmit_tone, afterEmit_cfg, e1, e2, Nat.mod_add_mod] at h1 h2 h3
      refine ⟨by rw [h1]; congr 1; omega, by rw [h2]; congr 1; omega, fun j hj => ?_⟩
      cases j with
      | zero =>
        obtain ⟨-, -, -, -, hr, -⟩ := emitLoop_frame hl
        refine ⟨bI, bQ, by simpa [Nat.mod_eq_of_lt hc, Nat.mod_eq_of_lt (hp _)] using hI,
          by simpa [Nat.mod_eq_of_lt hc, Nat.mod_eq_of_lt (hp _)] using hQ, ?_, ?_⟩
        · rw [hr _ (by omega), afterEmit_buf, Memory.read_write_ne _ (by omega)]; exact Memory.read_write_same _ _ _
        · rw [hr _ (by omega), afterEmit_buf]; exact Memory.read_write_same _ _ _
      | succ j =>
        obtain ⟨cI, cQ, g1, g2, g3, g4⟩ := h3 j (by omega)
        refine ⟨cI, cQ, ?_, ?_, ?_, ?_⟩
        · rw [← g1]; congr 2 <;> omega
        · rw [← g2]; congr 2 <;> omega
        · rw [← g3]; congr 1; omega
        · rw [← g4]; congr 1; omega

/-! ## XLATE and TSW -/

/-- Everything XLATE can do: the inactive phase becomes the translated active one (41 R158, R159). -/
theorem xlate_ok {s t : State} (h : xlate s = .ok t) :
    s.cfg.toneLen s.tone ≠ 0
      ∧ s.cfg.toneLen s.tone.other * (s.phase s.tone).toNat / s.cfg.toneLen s.tone < 2 ^ s.caps.toneBits
      ∧ t = s.setPhase s.tone.other
          (BitVec.ofNat 32 (s.cfg.toneLen s.tone.other * (s.phase s.tone).toNat / s.cfg.toneLen s.tone)) := by
  unfold xlate at h
  split at h
  · simp at h
  · rename_i h0
    obtain ⟨h1, h2⟩ := storePhase_ok.mp h
    exact ⟨h0, h1, h2⟩

/-- In range XLATE completes, in range again (41 R160). -/
theorem xlate_completes {s : State} {tab : Tables} (h : s.InRange tab) : ∃ t, xlate s = .ok t ∧ t.InRange tab := by
  obtain ⟨hv, ht, hc, hp⟩ := inRange_iff.mp h
  have hlt := translate_lt (hp s.tone) (toneLen_bounds hv s.tone.other).1
  have hfit := hlt.trans_le (toneLen_bounds hv s.tone.other).2
  refine ⟨_, by rw [xlate, if_neg (toneLen_bounds hv s.tone).1.ne', storePhase_ok.mpr ⟨hfit, rfl⟩], ?_⟩
  refine inRange_iff.mpr ⟨hv, ht, hc, fun u => ?_⟩
  rw [State.setPhase_cfg]
  rcases Tone.eq_or_eq_other s.tone.other u with rfl | rfl
  · rw [State.setPhase_phase, toNat_ofNat_phase hlt (toneLen_bounds hv _).2]
    exact hlt
  · rw [State.setPhase_phase_other]
    exact hp _

/-- Everything TSW can do: flip the tone and subtract `R` once the counter reaches it, or only count (41 R162). -/
theorem tsw_ok {n : Nat} {s t : State} (h : tsw n s = .ok t) :
    (s.cfg.opR ≤ (s.cnt.toNat + n : Nat) ∧ (s.cnt.toNat + n : Nat) - s.cfg.opR < 2 ^ 32
        ∧ t = s.setToneCnt s.tone.other (BitVec.ofNat 32 ((s.cnt.toNat + n : Nat) - s.cfg.opR).toNat))
      ∨ ((s.cnt.toNat + n : Nat) < s.cfg.opR ∧ s.cnt.toNat + n < 2 ^ 32
        ∧ t = s.setToneCnt s.tone (BitVec.ofNat 32 (s.cnt.toNat + n))) := by
  unfold tsw at h
  simp only [] at h
  split at h
  · rename_i h0
    obtain ⟨h1, h2⟩ := storeToneCnt_ok.mp h
    push_cast
    exact Or.inl ⟨h0, h1.2, h2⟩
  · rename_i h0
    obtain ⟨h1, rfl⟩ := storeToneCnt_ok.mp h
    push_cast
    exact Or.inr ⟨by omega, by omega, by rw [show ((s.cnt.toNat : Int) + n).toNat = s.cnt.toNat + n by omega]⟩

/-- With a positive threshold and a sum that fits, TSW completes. -/
theorem tsw_completes {n : Nat} {s : State} (hR : 1 ≤ s.cfg.opR) (hfit : s.cnt.toNat + n < 2 ^ 32) : ∃ t, tsw n s = .ok t := by
  unfold tsw
  simp only []
  split
  · exact ⟨_, storeToneCnt_ok.mpr ⟨⟨by omega, by omega⟩, rfl⟩⟩
  · exact ⟨_, storeToneCnt_ok.mpr ⟨⟨by omega, by omega⟩, rfl⟩⟩

/-! ## FILL -/

/-- The body of a FILL is its three parts in order (41 R151). -/
theorem fillBody_ok {n : Nat} {s t : State} :
    fillBody n s = .ok t ↔ ∃ s₁ s₂, emitLoop n 0 s = .ok s₁ ∧ xlate s₁ = .ok s₂ ∧ tsw n s₂ = .ok t := by
  unfold fillBody
  cases h1 : emitLoop n 0 s with
  | error f => simp
  | ok s₁ =>
    cases h2 : xlate s₁ with
    | error f => simp [h2]
    | ok s₂ => simp [h2]

/-- What every FILL body leaves alone, the canonical form among it. -/
theorem fillBody_frame {n : Nat} {s t : State} (h : fillBody n s = .ok t) :
    SameOutsideFill s t ∧ (∀ off, 2 * n ≤ off → t.buf.read off = s.buf.read off) ∧ (s.buf.wf = true → t.buf.wf = true) := by
  obtain ⟨s₁, s₂, h1, h2, h3⟩ := fillBody_ok.mp h
  obtain ⟨hf, -, -, -, hr, hw⟩ := emitLoop_frame h1
  obtain ⟨-, -, rfl⟩ := xlate_ok h2
  have key : SameOutsideFill s₁ t ∧ t.buf = s₁.buf := by
    rcases tsw_ok h3 with ⟨-, -, rfl⟩ | ⟨-, -, rfl⟩ <;>
      exact ⟨⟨rfl, rfl, rfl, rfl, rfl, rfl, rfl, rfl, rfl, rfl, rfl⟩, rfl⟩
  exact ⟨hf.trans key.1, fun off ho => by rw [key.2]; exact hr off (Or.inr (by omega)), fun h => by rw [key.2]; exact hw h⟩

/-- In range, with room in the buffer and in the counter, the body of a FILL completes, in range again (41 R163, R169). -/
theorem fillBody_completes {n : Nat} {s : State} {tab : Tables} (h : s.InRange tab) (ht : s.tables = some tab)
    (hcap : 2 * n ≤ s.capacity) (hfit : s.cnt.toNat + n < 2 ^ 32) : ∃ t, fillBody n s = .ok t ∧ t.InRange tab := by
  obtain ⟨s₁, h1, hr1⟩ := emitLoop_completes (k := n) (i := 0) h ht (by omega)
  obtain ⟨s₂, h2, hr2⟩ := xlate_completes hr1
  obtain ⟨-, -, hs2⟩ := xlate_ok h2
  have hc : s₂.cnt = s.cnt := by rw [hs2, State.setPhase_cnt]; exact (emitLoop_frame h1).2.2.1
  have hR : 1 ≤ s₂.cfg.opR := (firstInvalid_eq_none.mp hr2.1).2.2.2.2.2.2
  obtain ⟨t, h3⟩ := tsw_completes (n := n) hR (by rw [hc]; exact hfit)
  refine ⟨t, fillBody_ok.mpr ⟨s₁, s₂, h1, h2, h3⟩, ?_⟩
  rcases tsw_ok h3 with ⟨-, -, rfl⟩ | ⟨-, -, rfl⟩ <;> exact hr2

/-- Everything FILL can do: discard, be refused by one of the three tests of 41 R150, or run its body. -/
theorem execFill_cases {n : Count} {s t : State} (h : execFill n s = .next t) :
    (s.mode = .faulted ∧ t = s) ∨ (s.mode = .unbuilt ∧ t = s.raise .protocolViolation 1)
      ∨ (s.mode = .ready ∧ s.capacity < 2 * n.toNat ∧ t = s.raise .preconditionViolation 0)
      ∨ (s.mode = .ready ∧ 2 * n.toNat ≤ s.capacity ∧ 2 ^ 32 ≤ s.cnt.toNat + n.toNat ∧ t = s.raise .preconditionViolation 1)
      ∨ (s.Admits n.toNat ∧ fillBody n.toNat s = .ok t) := by
  unfold execFill at h
  cases hm : s.mode with
  | faulted => simp_all
  | unbuilt => simp_all
  | ready =>
    simp only [hm] at h
    split at h
    · simp_all
    · split at h
      · simp_all
      · split at h
        · cases h
        · exact Or.inr (Or.inr (Or.inr (Or.inr ⟨⟨hm, by omega, by omega, by simpa using ‹¬s.buflenTrue = false›⟩, toOutcome_next.mp h⟩)))

end Sys2Proof.Machine
end

