-- ==== Sys2Proof/Laws/Step.lean ====
section
/-! SUPPORT. Said once: everything an operation can do, and everything a step can do. -/

namespace Sys2Proof.Machine

theorem firstInvalid_le {g : CfgRegs} {caps : Capacities} {k : Byte} (h : g.firstInvalid caps = some k) : k.toNat ≤ 6 := by
  unfold CfgRegs.firstInvalid at h
  repeat' split at h
  all_goals first | (obtain rfl := Option.some.inj h; decide) | cases h

/-- Everything an operation can do, if it answers a next state: return a register, be discarded in Faulted, raise one fault, store one
register, load the tables, or run the body of a FILL. -/
theorem exec_cases {i : Instr} {s t : State} (h : exec i s = .next t) :
    (∃ r, i = .rdreg r ∧ t = s.setAnswer (s.readReg r))
      ∨ (s.mode = .faulted ∧ (∀ r, i ≠ .rdreg r) ∧ t = s)
      ∨ (s.mode ≠ .faulted ∧ ∃ k info, k ≠ .none ∧ recordLegal k info = true ∧ t = s.raise k info)
      ∨ (s.mode = .unbuilt ∧ ∃ r v, i = .wrreg r v ∧ regClass r = .configuration ∧ t = s.setCfg (s.cfg.set r v))
      ∨ (s.mode ≠ .faulted ∧ ∃ v, i = .wrreg .buflen v ∧ t = s.setBuflen v)
      ∨ (s.mode = .unbuilt ∧ i = .build ∧ s.cfg.firstInvalid s.caps = none ∧ t = s.load s.cfg.tables s.cfg.opT0)
      ∨ (∃ n : Count, i = .fill n ∧ s.Admits n.toNat ∧ fillBody n.toNat s = .ok t) := by
  cases i with
  | rdreg r =>
    have ht : s.setAnswer (s.readReg r) = t := by simpa [exec, execRdreg] using h
    exact .inl ⟨r, rfl, ht.symm⟩
  | build =>
    rcases execBuild_cases h with ⟨hm, rfl⟩ | ⟨hm, rfl⟩ | ⟨hm, k, hk, rfl⟩ | ⟨hm, hv, rfl⟩
    · exact .inr (.inl ⟨hm, by simp, rfl⟩)
    · exact .inr (.inr (.inl ⟨by simp [hm], _, _, by simp, by decide, rfl⟩))
    · exact .inr (.inr (.inl ⟨by simp [hm], _, _, by simp, by simpa [recordLegal] using firstInvalid_le hk, rfl⟩))
    · exact .inr (.inr (.inr (.inr (.inr (.inl ⟨hm, rfl, hv, rfl⟩)))))
  | fill n =>
    rcases execFill_cases h with ⟨hm, rfl⟩ | ⟨hm, rfl⟩ | ⟨hm, -, rfl⟩ | ⟨hm, -, -, rfl⟩ | ⟨ha, hb⟩
    · exact .inr (.inl ⟨hm, by simp, rfl⟩)
    · exact .inr (.inr (.inl ⟨by simp [hm], _, _, by simp, by decide, rfl⟩))
    · exact .inr (.inr (.inl ⟨by simp [hm], _, _, by simp, by decide, rfl⟩))
    · exact .inr (.inr (.inl ⟨by simp [hm], _, _, by simp, by decide, rfl⟩))
    · exact .inr (.inr (.inr (.inr (.inr (.inr ⟨n, rfl, ha, hb⟩)))))
  | reservedCmd word =>
    rcases execReservedCmd_cases (w := word) h with ⟨hm, rfl⟩ | ⟨hm, rfl⟩
    · exact .inr (.inl ⟨hm, by simp, rfl⟩)
    · exact .inr (.inr (.inl ⟨hm, _, _, by simp, by decide, rfl⟩))
  | wrreg r v =>
    rcases execWrreg_cases h with ⟨hm, rfl⟩ | ⟨hm, hr, rfl⟩ | ⟨hm, rfl, rfl⟩ | ⟨hm, rfl⟩
    · exact .inr (.inl ⟨hm, by simp, rfl⟩)
    · exact .inr (.inr (.inr (.inl ⟨hm, r, v, rfl, hr, rfl⟩)))
    · exact .inr (.inr (.inr (.inr (.inl ⟨hm, v, rfl, rfl⟩))))
    · exact .inr (.inr (.inl ⟨hm, _, _, by simp, by decide, rfl⟩))

/-- Everything a step can do: idle, reset the block, take a buffer, or perform the operation of a transaction. -/
theorem step_cases {s t : State} (h : step s = .next t) :
    (s.port = [] ∧ t = s)
      ∨ (∃ rest, s.port = .reset :: rest ∧ t = (s.accept rest).resetBlock)
      ∨ (∃ bytes rest, s.port = .handOver bytes :: rest ∧ t = (s.accept rest).handOver bytes)
      ∨ (∃ w rest, s.port = .bus w :: rest ∧ exec (decode w) (s.accept rest) = .next t) := by
  unfold step at h
  split at h
  · rename_i hp
    exact .inl ⟨hp, by simpa using h.symm⟩
  · rename_i rest hp
    exact .inr (.inl ⟨rest, hp, by simpa using h.symm⟩)
  · rename_i bytes rest hp
    exact .inr (.inr (.inl ⟨bytes, rest, hp, by simpa using h.symm⟩))
  · rename_i w rest hp
    exact .inr (.inr (.inr ⟨w, rest, hp, h⟩))

/-- Taking a move from the port neither makes nor breaks the invariant. -/
theorem accept_inv {s : State} (rest : List HostMove) (h : s.Inv) : (s.accept rest).Inv :=
  ⟨h.capsLegal, h.bufCanonical, h.takenCanonical, h.bufInside, h.errIffFaulted, h.record, h.unbuiltNoTables, h.readyTables, h.atRest, h.inRange⟩

end Sys2Proof.Machine
end

