-- ==== Sys2Proof/Tests/Slice0.lean ====
section
/-! SUPPORT. The model's own tests: words written out from the spec's encodings, steps whose results stand in 95_test_vectors.md, and for every
statement with hypotheses a state and operands that meet them together. -/

open Sys2Proof Sys2Proof.Machine

namespace Sys2Proof.Tests

/-! ## Ill-formed terms are refused -/

theorem test_wellformed_write_of_cmd : Instr.wellFormed (.wrreg .cmd 0x10000000#32) = false := by decide

theorem test_wellformed_build_is_not_reserved : Instr.wellFormed (.reservedCmd 0x10000000#32) = false := by decide

theorem test_wellformed_fill_is_not_reserved : Instr.wellFormed (.reservedCmd 0x2000000A#32) = false := by decide

theorem test_wellformed_write_of_cmd_refused :
    exec (.wrreg .cmd 0x10000000#32) State.reset = .refused .cmdIsNoWrreg := rfl

/-! ## Words written out from 30 R92, R93 (rw, idx, data or op and arg), with the meanings of 95 section 3.8 -/

theorem test_decode_rdreg :
    decode 0b0_0000_00000000000000000000000000000000#37 = .rdreg .cfgC
      ∧ decode 0b0_1111_11111111111111111111111111111111#37 = .rdreg .cmd
      ∧ decode 0b0_1110_00000000000000000000000000000000#37 = .rdreg .status := by decide

theorem test_decode_wrreg :
    decode 0b1_1000_00000000000001000000000000000000#37 = .wrreg .buflen 262144#32
      ∧ decode 0b1_0110_00000000011110100001001000000000#37 = .wrreg .cfgR 8000000#32
      ∧ decode 0b1_1110_00000000000000000000000000000000#37 = .wrreg .status 0#32 := by decide

theorem test_decode_build : decode 0b1_1111_0001_0000000000000000000000000000#37 = .build := by decide

theorem test_decode_fill :
    decode 0b1_1111_0010_0000000000000001101000001010#37 = .fill 6666#28
      ∧ decode 0b1_1111_0010_1111111111111111111111111111#37 = .fill 268435455#28 := by decide

theorem test_decode_reserved :
    decode 0b1_1111_0001_0000000000000000000000000001#37 = .reservedCmd 0x10000001#32
      ∧ decode 0b1_1111_0000_0000000000000000000000000000#37 = .reservedCmd 0#32
      ∧ decode 0b1_1111_1111_1111111111111111111111111111#37 = .reservedCmd 0xFFFFFFFF#32 := by decide

theorem test_decode_wider_than_bus : decodeNat (2 ^ 37) = .error .widerThanBus := by decide

/-! ## Small states -/

/-- The small configuration of 95_test_vectors.md. -/
def small : CfgRegs := ⟨4, 11, 6, 4, 3, 127, 16, 0⟩

/-- Unbuilt, with a configuration written. -/
def unbuilt (g : CfgRegs) : State := { State.reset with cfg := g }

/-- The smallest capacities an instance can have (00 R7). -/
def smallest : Capacities := ⟨10, 6666⟩

/-- Ready in the small configuration, in the state `CPH MPH SPH TONE CNT`, with a buffer of `buflen` bytes. -/
def ready (cph mph sph : Word) (tone : Tone) (cnt buflen : Word) : State :=
  { State.reset with
    cfg := small, tables := some small.tables, mode := .ready, cph := cph, mph := mph, sph := sph, tone := tone, cnt := cnt, buflen := buflen }

/-- Faulted with `ProtocolViolation(0)`, the moves of the host given. -/
def faulted (moves : List HostMove) : State := { State.reset.raise .protocolViolation 0 with port := moves }

/-- The register file `CPH MPH SPH TONE CNT` of 95_test_vectors.md. -/
def synthState (s : State) : Nat × Nat × Nat × Nat × Nat := (s.cph.toNat, s.mph.toNat, s.sph.toNat, s.tone.code, s.cnt.toNat)

/-- What a test looks at in an outcome: the synthesis state, the STATUS word and the first `k` bytes of the buffer. -/
def seen (k : Nat) : Host.Outcome State Fault Refusal → Option ((Nat × Nat × Nat × Nat × Nat) × Word × List (Option Byte))
  | .next t => some (synthState t, t.statusWord, (List.range k).map t.buf.read)
  | .fault _ => none
  | .refused _ => none

/-- The state an outcome holds; the state given where it holds none. -/
def after (s : State) : Host.Outcome State Fault Refusal → State
  | .next t => t
  | .fault _ => s
  | .refused _ => s

/-- Whether an outcome is a next state of which a test holds. -/
def ends (p : State → Bool) : Host.Outcome State Fault Refusal → Bool
  | .next t => p t
  | .fault _ => false
  | .refused _ => false

theorem exists_of_ends {p : State → Bool} {o : Host.Outcome State Fault Refusal} (h : ends p o = true) :
    ∃ t, o = .next t ∧ p t = true := by
  cases o with
  | next t => exact ⟨t, rfl, h⟩
  | fault f => cases h
  | refused f => cases h

/-! ## Steps whose results stand in the spec -/

/-- 95 section 3.7. -/
theorem test_rdreg_status : exec (.rdreg .status) (faulted []) = .next { faulted [] with answer := some 0x00000032#32 } := rfl

/-- 95 section 3.9. -/
theorem test_rdreg_sph : (after State.reset (exec (.rdreg .sph) (ready 1 9 5 .space 5 9))).answer = some 5#32 := by decide +kernel

/-- 95 section 3.7. -/
theorem test_wrreg_keeps_all_bits :
    (after State.reset (exec (.wrreg .cfgLs 0xFFFFFFFF#32) State.reset)).readReg .cfgLs = 0xFFFFFFFF#32 := by decide

/-- 95 section 3.7. -/
theorem test_wrreg_cph_refused : seen 0 (exec (.wrreg .cph 1#32) State.reset) = some ((0, 0, 0, 0, 0), 0x00000332#32, []) := by decide

/-- 95 section 3.8. -/
theorem test_reserved_command : seen 0 (exec (.reservedCmd 0#32) State.reset) = some ((0, 0, 0, 0, 0), 0x00000032#32, []) := by decide

/-- 95 section 3.1, the signed reading. -/
theorem test_build_negative_length :
    seen 0 (exec .build (unbuilt { small with ls := 0xFFFFFFFF#32 })) = some ((0, 0, 0, 0, 0), 0x00000212#32, []) := by decide

/-- 40 R122: another instance has other limits; 16 is too many columns for the smallest. -/
theorem test_build_other_capacities :
    seen 0 (exec .build { State.resetOf smallest with cfg := { small with c := 16 } }) = some ((0, 0, 0, 0, 0), 0x00000012#32, [])
      ∧ { small with c := 16 }.firstInvalid Capacities.reference = none := by decide

/-- 95 section 3.1: bit 0 of `CFG_T0` only. -/
theorem test_build_start_tone :
    seen 0 (exec .build (unbuilt { small with t0 := 0xFFFFFFFE#32 })) = some ((0, 0, 0, 0, 0), 0x00000001#32, [])
      ∧ seen 0 (exec .build (unbuilt { small with t0 := 1#32 })) = some ((0, 0, 0, 1, 0), 0x00000001#32, []) :=
  ⟨by decide +kernel, by decide +kernel⟩

/-- 95 section 2.3, row 1 of the Mark I table and row 1 of the Space Q table. -/
theorem test_small_tables :
    (List.range 4).map (small.entry .mark .I 1) = [-114, 55, 114, -55]
      ∧ (List.range 4).map (small.entry .space .Q 1) = [100, 79, -100, -79] := by decide +kernel

/-- 95 section 2.3, by the enclosures that narrow without end: the first one of eight terms decides. -/
theorem test_small_entry_by_enclosures :
    (valueApprox false 4 11 4 3 127 1 0 8).decided = some (-114) ∧ (valueApprox false 4 11 4 3 127 1 1 9).decided = some 55 := by decide +kernel

/-- 95 section 2.4, the reference entries nearest to a rounding tie. -/
theorem test_entries_near_a_tie :
    entry false 10 6666 4 3 127 4845 4 = 54 ∧ entry false 10 3636 4 3 127 1279 3 = 56 := by decide +kernel

/-- 95 section 3.4, third line: seven pairs across the wrap of `SPH`, then the flip. -/
theorem test_fill_flips :
    seen 14 (exec (.fill 7) (ready 2 7 4 .space 10 80)) = some ((1, 9, 5, 1, 1), 0x00000001#32,
      [0xB1, 0x9C, 0x9C, 0xB1, 0x85, 0x1E, 0x64, 0x4F, 0xB1, 0x9C, 0xE2, 0x7B, 0x4F, 0x64].map some) := by decide +kernel

/-- 95 section 3.4, fourth line: three pairs of Mark across the wrap of `MPH`, in a buffer longer than the pairs. -/
theorem test_fill_mark :
    seen 7 (exec (.fill 3) (ready 1 9 5 .mark 1 80)) = some ((0, 1, 0, 1, 4), 0x00000001#32,
      [some 0x6C, some 0x43, some 0x72, some 0xC9, some 0xE2, some 0x85, none]) := by decide +kernel

/-- 95 section 3.5: an odd capacity. -/
theorem test_fill_short_buffer :
    seen 1 (exec (.fill 6) (ready 1 9 5 .space 5 11)) = some ((1, 9, 5, 0, 5), 0x00000022#32, [none]) := by decide +kernel

/-- 95 section 3.3, the reference lengths: 1000 gives 545, which gives 999. -/
theorem test_translate : 3636 * 1000 / 6666 = 545 ∧ 6666 * 545 / 3636 = 999 := by decide

/-- 95 program P1: `BUFLEN = 20`, `FILL 10`, as the pseudo-operation of 30 R100 writes them. -/
theorem test_assemble_fillbuf : assemble (.fillbuf 20) = some [.bus 0x1800000014, .bus 0x1F2000000A] := by decide

/-- 95 section 3.7 and program P1: lines of a listing, with a comment, a shown value and an empty line. -/
theorem test_assemble_listing :
    assembleText "WRREG CFG_LS, -1 ; judged by BUILD\nRDREG 14 -> 0x00000001\n\nWRREG BUFLEN, 0x14".toList
      = some [.bus 0x12FFFFFFFF, .bus 0x0E00000000, .bus 0x1800000014] := by decide +kernel

/-- 30 R99: WRREG names indices 0 to 14 only. -/
theorem test_assemble_write_of_cmd : assembleLine "WRREG CMD, 0".toList = none := by decide +kernel

/-- 95 section 3.1: BUILD straight after RESET, as the host's first transaction. -/
theorem test_step_build_after_reset :
    seen 0 (step (State.reset.withFetchWord 40 0x1F10000000)) = some ((0, 0, 0, 0, 0), 0x00000012#32, []) := by decide +kernel

/-! ## The hypotheses of the statements can be met -/

theorem small_legal : small.firstInvalid Capacities.reference = none := by decide

/-- The states `ready` have the invariant when their phases are in range. -/
theorem ready_inv {cph mph sph : Word} (tone : Tone) (cnt buflen : Word)
    (h : cph.toNat < 4 ∧ mph.toNat < 11 ∧ sph.toNat < 6) : (ready cph mph sph tone cnt buflen).Inv where
  capsLegal := (by decide : Capacities.reference.Legal)
  bufCanonical := rfl
  takenCanonical := by simp [ready, State.reset, State.resetOf]
  bufInside := by simp [ready, State.reset, State.resetOf]
  errIffFaulted := by simp [ready, State.reset, State.resetOf]
  record := rfl
  unbuiltNoTables := by simp [ready]
  readyTables := by simp [ready]
  atRest := by simp [ready]
  inRange := by
    rintro t ⟨⟩
    exact ⟨small_legal, rfl, h⟩

theorem ready_inRange {cph mph sph : Word} (tone : Tone) (cnt buflen : Word)
    (h : cph.toNat < 4 ∧ mph.toNat < 11 ∧ sph.toNat < 6) :
    (ready cph mph sph tone cnt buflen).InRange small.tables :=
  (ready_inv tone cnt buflen h).inRange _ rfl

/-- Legal configurations: the small one, and every limit at its lower and at its upper edge, of the reference instance and of the smallest
one. -/
theorem test_witness_legal :
    small.Legal Capacities.reference ∧ CfgRegs.Legal ⟨1, 1, 1, 1, 1, 1, 1, 0⟩ Capacities.reference
      ∧ CfgRegs.Legal ⟨16, 8192, 8192, 0x7FFFFFFF, 0x7FFFFFFF, 127, 0x7FFFFFFF, 0⟩ Capacities.reference
      ∧ CfgRegs.Legal ⟨10, 6666, 6666, 0x7FFFFFFF, 0x7FFFFFFF, 127, 0x7FFFFFFF, 0⟩ smallest := by
  refine ⟨fun k hk => ?_, fun k hk => ?_, fun k hk => ?_, fun k hk => ?_⟩ <;> interval_cases k <;> simp only [CfgRegs.passes] <;> decide

theorem test_witness_DecodeOfEncodeIsIdentity :
    Instr.WellFormed (.rdreg .cmd) ∧ Instr.WellFormed .build ∧ Instr.WellFormed (.fill 0xFFFFFFF)
      ∧ Instr.WellFormed (.reservedCmd 0x10000001) ∧ Instr.WellFormed (.reservedCmd 0x1FFFFFFF)
      ∧ Instr.WellFormed (.wrreg .status 0xFFFFFFFF) := by decide

theorem test_witness_EncodeOfDecodeIsIdentity :
    (0x1000000000#37).getLsbD 36 = true ∧ (0x0FFFFFFFFF#37).getLsbD 36 = false := by decide

theorem test_witness_DecodeFollowsOpcodeTable :
    (0x0FFFFFFFFF#37 &&& 0x1000000000#37 = 0x0000000000#37)
      ∧ (0x1F10000000#37 &&& 0x1FFFFFFFFF#37 = 0x1F10000000#37)
      ∧ (0x1F2FFFFFFF#37 &&& 0x1FF0000000#37 = 0x1F20000000#37)
      ∧ (0x1F10000001#37 &&& 0x1F00000000#37 = 0x1F00000000#37 ∧ 0x1F10000001#37 &&& 0x1FFFFFFFFF#37 ≠ 0x1F10000000#37
          ∧ 0x1F10000001#37 &&& 0x1FF0000000#37 ≠ 0x1F20000000#37)
      ∧ (0x1EFFFFFFFF#37 &&& 0x1000000000#37 = 0x1000000000#37
          ∧ 0x1EFFFFFFFF#37 &&& 0x1F00000000#37 ≠ 0x1F00000000#37) := by decide

theorem test_witness_PseudoOperationsExpand : (2 ^ 29 - 1) / 2 < 2 ^ 28 ∧ 0 / 2 < 2 ^ 28 := by decide

theorem test_witness_ListingOperationsStandForMoves :
    Reg.status ≠ Reg.cmd ∧ 0 < 2 ^ 31 ∧ 2 ^ 31 ≤ 2 ^ 31 ∧ 268435455 ≤ 268435455 := by decide

theorem test_witness_StepRunsDecodedOperation :
    ({ State.reset with port := [.bus 0x1F10000000] } : State).port = .bus 0x1F10000000 :: [] ∧ 2 ^ 37 - 1 < 2 ^ 37 := by decide

theorem test_witness_IdleAndBufferMoves :
    State.reset.port = [] ∧ ({ State.reset with port := [.handOver [0xEE]] } : State).port = .handOver [0xEE] :: [] := by decide

theorem test_witness_ResetMoveRestoresResetState :
    (faulted [.reset]).port = .reset :: []
      ∧ (faulted [.reset]).mode = .faulted
      ∧ (∃ t, step (faulted [.reset]) = .next t ∧ t.mode ≠ .faulted)
      ∧ ends (fun t => t.tables.isNone) (step { ready 0 0 0 .space 0 0 with port := [.reset] }) = true
      ∧ ends (fun t => t.tables.isNone) (step { (ready 0 0 0 .space 0 0).raise .preconditionViolation 0 with port := [.reset] }) = true :=
  ⟨rfl, rfl, ⟨_, rfl, by decide⟩, by decide +kernel, by decide +kernel⟩

theorem test_witness_StatusWordIsOneOfFifteen : (ready 3 10 5 .mark 0xFFFFFFFF 80).Inv := ready_inv _ _ _ (by decide)

theorem test_witness_WrregStoresConfiguration :
    State.reset.mode = .unbuilt ∧ Reg.cfgC.idx.toNat ≤ 7 ∧ Reg.cfgT0.idx.toNat ≤ 7 ∧ Reg.cfgT0 ≠ Reg.cfgC := by decide

theorem test_witness_WrregStoresBuflen : State.reset.mode = .unbuilt ∧ (ready 0 0 0 .space 0 0).mode = .ready := ⟨rfl, rfl⟩

theorem test_witness_WrregRefusedByClassAndMode :
    (9 ≤ Reg.cph.idx.toNat ∧ Reg.cph.idx.toNat ≤ 14 ∧ State.reset.mode = .unbuilt)
      ∧ (9 ≤ Reg.status.idx.toNat ∧ Reg.status.idx.toNat ≤ 14 ∧ (ready 0 0 0 .space 0 0).mode = .ready)
      ∧ (Reg.cfgT0.idx.toNat ≤ 7 ∧ (ready 0 0 0 .space 0 0).mode = .ready) :=
  ⟨by decide, ⟨by decide, by decide, rfl⟩, by decide, rfl⟩

theorem test_witness_ReservedCommandRaises :
    ((0xFFFFFFFF#32).extractLsb' 28 4 ≠ 1 ∧ (0xFFFFFFFF#32).extractLsb' 28 4 ≠ 2)
      ∧ ((0x10000001#32).extractLsb' 28 4 = 1 ∧ (0x10000001#32).extractLsb' 0 28 ≠ 0)
      ∧ State.reset.mode = .unbuilt := by decide

theorem test_witness_FaultedDiscardsWritesAndCommands :
    (faulted []).mode = .faulted ∧ Instr.WellFormed (.fill 5) ∧ ∀ r, Instr.fill 5 ≠ .rdreg r :=
  ⟨rfl, by decide, fun _ h => by cases h⟩

theorem test_witness_BuildLoadsTablesAndZeroPhases :
    (unbuilt small).mode = .unbuilt ∧ (unbuilt small).err = .none ∧ (unbuilt small).errInfo = 0
      ∧ (unbuilt small).cfg.Legal (unbuilt small).caps :=
  ⟨rfl, rfl, rfl, test_witness_legal.1⟩

theorem test_witness_BuildPopulatesEveryEntry : (unbuilt small).mode = .unbuilt ∧ (unbuilt small).cfg.Legal (unbuilt small).caps :=
  ⟨rfl, test_witness_legal.1⟩

/-- One configuration per clause, each failing its first test at the edge of the range (95 section 3.1). -/
theorem test_witness_BuildReportsFirstFailingTest :
    (unbuilt small).mode = .unbuilt
      ∧ ∀ k < 7, ∃ g : CfgRegs, (∀ j < k, g.passes Capacities.reference j) ∧ ¬g.passes Capacities.reference k := by
  refine ⟨rfl, fun k hk => ?_⟩
  interval_cases k
  · exact ⟨{ small with c := 17 }, fun j hj => by omega, by simp only [CfgRegs.passes]; decide⟩
  · exact ⟨{ small with lm := 8193 }, fun j hj => by interval_cases j; simp only [CfgRegs.passes]; decide, by
      simp only [CfgRegs.passes]; decide⟩
  · exact ⟨{ small with ls := 0xFFFFFFFF }, fun j hj => by interval_cases j <;> simp only [CfgRegs.passes] <;> decide, by
      simp only [CfgRegs.passes]; decide⟩
  · exact ⟨{ small with dnum := 0 }, fun j hj => by interval_cases j <;> simp only [CfgRegs.passes] <;> decide, by
      simp only [CfgRegs.passes]; decide⟩
  · exact ⟨{ small with dden := 0 }, fun j hj => by interval_cases j <;> simp only [CfgRegs.passes] <;> decide, by
      simp only [CfgRegs.passes]; decide⟩
  · exact ⟨{ small with a := 128 }, fun j hj => by interval_cases j <;> simp only [CfgRegs.passes] <;> decide, by
      simp only [CfgRegs.passes]; decide⟩
  · exact ⟨{ small with r := 0x80000000 }, fun j hj => by interval_cases j <;> simp only [CfgRegs.passes] <;> decide, by
      simp only [CfgRegs.passes]; decide⟩

theorem test_witness_SecondBuildRefused :
    (ready 0 0 0 .space 0 0).mode = .ready ∧ Reg.cmd ≠ Reg.status ∧ (faulted []).mode = .faulted := ⟨rfl, by decide, rfl⟩

theorem test_witness_EntryIsExactReal :
    small.Legal Capacities.reference ∧ 10 < small.toneLen .mark ∧ 3 < small.carrierLen :=
  ⟨test_witness_legal.1, by decide, by decide⟩

/-- Each clause: rows `s` and `L - s`, row 0 of both tones, a half turn, a quarter turn. -/
theorem test_witness_EntriesAreSymmetric :
    small.Legal Capacities.reference ∧ 1 ≤ 5 ∧ 5 < small.toneLen .space ∧ 3 < small.carrierLen ∧ 2 ∣ small.carrierLen
      ∧ 4 ∣ small.carrierLen :=
  ⟨test_witness_legal.1, by decide, by decide, by decide, by decide, by decide⟩

theorem test_witness_EntriesOnUnitCircle :
    small.Legal Capacities.reference ∧ 10 < small.toneLen .mark ∧ 3 < small.carrierLen :=
  ⟨test_witness_legal.1, by decide, by decide⟩

/-- The ratios 4/3 and 8/6. -/
theorem test_witness_SameRatioGivesSameTables :
    (unbuilt small).mode = .unbuilt ∧ small.Legal (unbuilt small).caps
      ∧ unbuilt { small with dnum := 8, dden := 6 } = { unbuilt small with cfg := { small with dnum := 8, dden := 6 } }
      ∧ CfgRegs.Legal { small with dnum := 8, dden := 6 } (unbuilt small).caps
      ∧ small.opDnum * CfgRegs.opDden { small with dnum := 8, dden := 6 }
          = CfgRegs.opDnum { small with dnum := 8, dden := 6 } * small.opDden := by
  refine ⟨rfl, test_witness_legal.1, rfl, fun k hk => ?_, by decide⟩
  interval_cases k <;> simp only [CfgRegs.passes] <;> decide

/-- Both tones, the last pair that fits. -/
theorem test_witness_EmitWritesPairAndAdvances :
    (ready 3 10 5 .mark 0 80).InRange small.tables ∧ (ready 3 10 5 .mark 0 80).tables = some small.tables
      ∧ (ready 3 10 5 .space 0 80).InRange small.tables ∧ (ready 3 10 5 .space 0 80).tables = some small.tables
      ∧ 2 * 39 + 1 < (ready 3 10 5 .space 0 80).capacity :=
  ⟨ready_inRange _ _ _ (by decide), rfl, ready_inRange _ _ _ (by decide), rfl, by decide⟩

theorem test_witness_XlateTranslatesInactivePhase :
    ((ready 3 10 5 .mark 0 80).InRange small.tables ∧ (ready 3 10 5 .mark 0 80).tone = .mark)
      ∧ (ready 3 10 5 .space 0 80).InRange small.tables ∧ (ready 3 10 5 .space 0 80).tone = .space :=
  ⟨⟨ready_inRange _ _ _ (by decide), rfl⟩, ready_inRange _ _ _ (by decide), rfl⟩

/-- The counter reaches the threshold exactly; it stays one below. -/
theorem test_witness_TswFlipsAtThreshold :
    1 ≤ (ready 0 0 0 .space 10 80).cfg.opR ∧ (ready 0 0 0 .space 10 80).cnt.toNat + 6 < 2 ^ 32
      ∧ (ready 0 0 0 .space 10 80).cfg.opR ≤ ((ready 0 0 0 .space 10 80).cnt.toNat + 6 : Nat)
      ∧ (((ready 0 0 0 .space 10 80).cnt.toNat + 5 : Nat) : Int) < (ready 0 0 0 .space 10 80).cfg.opR := by
  refine ⟨by decide, by decide, by decide, by decide⟩

/-- Each clause of 41 R150 at its boundary. -/
theorem test_witness_FillAdmissionTests :
    (faulted []).mode = .faulted
      ∧ State.reset.mode = .unbuilt
      ∧ ((ready 0 0 0 .space 0 9).mode = .ready ∧ (ready 0 0 0 .space 0 9).buflen.toNat < 2 * (5#28).toNat)
      ∧ ((ready 0 0 0 .space 0xFFFFFFE0 80).mode = .ready ∧ 2 * (32#28).toNat ≤ (ready 0 0 0 .space 0xFFFFFFE0 80).buflen.toNat
          ∧ 2 ^ 32 ≤ (ready 0 0 0 .space 0xFFFFFFE0 80).cnt.toNat + (32#28).toNat)
      ∧ (ready 0 0 0 .space 0xFFFFFFE0 62).mode = .ready ∧ 2 * (31#28).toNat ≤ (ready 0 0 0 .space 0xFFFFFFE0 62).buflen.toNat
      ∧ (ready 0 0 0 .space 0xFFFFFFE0 62).cnt.toNat + (31#28).toNat < 2 ^ 32
      ∧ (ready 0 0 0 .space 0xFFFFFFE0 62).buflenTrue = true :=
  ⟨rfl, rfl, ⟨rfl, by decide⟩, ⟨rfl, by decide, by decide⟩, rfl, by decide, by decide, rfl⟩

/-- A buffer of 9 bytes behind `BUFLEN = 10`; one of 10 bytes keeps the premise. -/
theorem test_witness_FillNeedsTrueBuflen :
    ((ready 0 0 0 .space 0 10).mode = .ready ∧ 2 * (5#28).toNat ≤ (ready 0 0 0 .space 0 10).buflen.toNat
        ∧ (ready 0 0 0 .space 0 10).cnt.toNat + (5#28).toNat < 2 ^ 32
        ∧ State.buflenTrue { ready 0 0 0 .space 0 10 with bufSize := some 9 } = false)
      ∧ exec (.fill 5) { ready 0 0 0 .space 0 10 with bufSize := some 9 } = .refused .buflenUntrue
      ∧ State.buflenTrue { ready 0 0 0 .space 0 10 with bufSize := some 10 } = true :=
  ⟨⟨rfl, by decide, by decide, by decide⟩, rfl, by decide⟩

/-- A FILL admitted at both boundaries: the buffer just long enough, the counter just fitting. -/
theorem test_witness_fill :
    ((ready 3 10 5 .mark 0xFFFFFFE0 62).Inv ∧ (ready 3 10 5 .mark 0xFFFFFFE0 62).Admits (31#28).toNat
        ∧ (ready 3 10 5 .mark 0xFFFFFFE0 62).tables = some small.tables)
      ∧ (ready 3 10 5 .space 0 10).Inv ∧ (ready 3 10 5 .space 0 10).Admits (5#28).toNat
      ∧ (ready 3 10 5 .space 0 10).tables = some small.tables :=
  ⟨⟨ready_inv _ _ _ (by decide), ⟨rfl, by decide, by decide, rfl⟩, rfl⟩, ready_inv _ _ _ (by decide), ⟨rfl, by decide, by decide, rfl⟩, rfl⟩

/-- `FillEmitsClosedForm`, with the active tone Mark and Space. -/
theorem test_witness_FillEmitsClosedForm :
    (ready 3 10 5 .space 0 10).Inv ∧ (ready 3 10 5 .space 0 10).Admits (5#28).toNat
      ∧ (ready 3 10 5 .space 0 10).tables = some small.tables := test_witness_fill.2

/-- Admitted; and refused for the buffer, the buffer then staying as it is. -/
theorem test_witness_FillWritesOnlyItsPairs :
    ((ready 3 10 5 .space 0 10).Inv ∧ (ready 3 10 5 .space 0 10).Admits (5#28).toNat)
      ∧ ¬(ready 3 10 5 .space 0 9).Admits (5#28).toNat ∧ ∃ t, exec (.fill 5) (ready 3 10 5 .space 0 9) = .next t :=
  ⟨⟨test_witness_fill.2.1, test_witness_fill.2.2.1⟩, fun h => absurd h.2.1 (by decide), _, rfl⟩

theorem test_witness_FillLeavesPhasesConsistent :
    ((ready 3 10 5 .mark 0xFFFFFFE0 62).Inv ∧ (ready 3 10 5 .mark 0xFFFFFFE0 62).Admits (31#28).toNat
        ∧ (ready 3 10 5 .mark 0xFFFFFFE0 62).tone = .mark)
      ∧ (ready 3 10 5 .space 0 10).Inv ∧ (ready 3 10 5 .space 0 10).Admits (5#28).toNat
      ∧ (ready 3 10 5 .space 0 10).tone = .space :=
  ⟨⟨test_witness_fill.1.1, test_witness_fill.1.2.1, rfl⟩, test_witness_fill.2.1, test_witness_fill.2.2.1, rfl⟩

/-- The threshold reached exactly; one short of it. -/
theorem test_witness_FillCountsAndSwitches :
    (ready 3 10 5 .space 11 10).Inv ∧ (ready 3 10 5 .space 11 10).Admits (5#28).toNat
      ∧ (ready 3 10 5 .space 11 10).cfg.opR ≤ ((ready 3 10 5 .space 11 10).cnt.toNat + (5#28).toNat : Nat)
      ∧ (ready 3 10 5 .space 11 10).Admits (4#28).toNat
      ∧ (((ready 3 10 5 .space 11 10).cnt.toNat + (4#28).toNat : Nat) : Int) < (ready 3 10 5 .space 11 10).cfg.opR :=
  ⟨ready_inv _ _ _ (by decide), ⟨rfl, by decide, by decide, rfl⟩, by decide, ⟨rfl, by decide, by decide, rfl⟩, by decide⟩

theorem test_witness_FillFrame :
    (ready 3 10 5 .mark 0xFFFFFFE0 62).Inv ∧ (ready 3 10 5 .mark 0xFFFFFFE0 62).Admits (31#28).toNat :=
  ⟨test_witness_fill.1.1, test_witness_fill.1.2.1⟩

/-- `FILL 0` with the counter at the threshold, and one below it. -/
theorem test_witness_FillZeroTranslatesAndSwitches :
    ((ready 0 3 2 .space 16 0).Inv ∧ (ready 0 3 2 .space 16 0).mode = .ready ∧ (ready 0 3 2 .space 16 0).buflenTrue = true
        ∧ (ready 0 3 2 .space 16 0).cfg.opR ≤ (ready 0 3 2 .space 16 0).cnt.toNat)
      ∧ (ready 0 10 5 .space 15 0).Inv ∧ (ready 0 10 5 .space 15 0).mode = .ready ∧ (ready 0 10 5 .space 15 0).buflenTrue = true
      ∧ ¬(ready 0 10 5 .space 15 0).cfg.opR ≤ (ready 0 10 5 .space 15 0).cnt.toNat :=
  ⟨⟨ready_inv _ _ _ (by decide), rfl, rfl, by decide⟩, ready_inv _ _ _ (by decide), rfl, rfl, by decide⟩

/-- The split of 95 section 3.4: 15 and 1, against 16. -/
theorem test_witness_FillSplitsIntoTwo :
    (ready 0 0 0 .space 0 80).Inv ∧ (16#28).toNat = (15#28).toNat + (1#28).toNat ∧ (ready 0 0 0 .space 0 80).Admits (16#28).toNat
      ∧ (((ready 0 0 0 .space 0 80).cnt.toNat + (15#28).toNat : Nat) : Int) < (ready 0 0 0 .space 0 80).cfg.opR :=
  ⟨ready_inv _ _ _ (by decide), by decide, ⟨rfl, by decide, by decide, rfl⟩, by decide⟩

/-- Twelve pairs of Space, `lcm(6, 4)` (95 section 3.6). -/
theorem test_witness_PhasesReturnAtMultiplesOfLcm :
    (ready 0 0 0 .space 0 80).Inv ∧ (ready 0 0 0 .space 0 80).Admits (12#28).toNat
      ∧ Nat.lcm ((ready 0 0 0 .space 0 80).cfg.toneLen .space) (ready 0 0 0 .space 0 80).cfg.carrierLen ∣ (12#28).toNat :=
  ⟨ready_inv _ _ _ (by decide), ⟨rfl, by decide, by decide, rfl⟩, by decide⟩

/-- The flips, the last mode and the last counter of a run of FILLs. -/
def runSeen (ns : List Count) (s : State) : Option (Nat × Mode × Nat) :=
  (runFills ns s).map fun p => (p.2, p.1.mode, p.1.cnt.toNat)

/-- A run met by every hypothesis of `CounterIsPairsMinusFlips`: batches of 8 and 8, one flip (95 section 3.4). -/
theorem test_witness_CounterIsPairsMinusFlips :
    (ready 0 0 0 .space 0 80).Inv ∧ (ready 0 0 0 .space 0 80).mode = .ready
      ∧ (∃ t, runFills [8, 8] (ready 0 0 0 .space 0 80) = some (t, 1) ∧ t.mode = .ready)
      ∧ ((ready 0 0 0 .space 0 80).cnt.toNat : Int) < (ready 0 0 0 .space 0 80).cfg.opR
      ∧ ∀ n ∈ ([8, 8] : List Count), (n.toNat : Int) ≤ (ready 0 0 0 .space 0 80).cfg.opR := by
  have h : runSeen [8, 8] (ready 0 0 0 .space 0 80) = some (1, .ready, 0) := by decide +kernel
  refine ⟨ready_inv _ _ _ (by decide), rfl, ?_, by decide, List.forall_mem_cons.mpr ⟨by decide, List.forall_mem_singleton.mpr (by decide)⟩⟩
  obtain ⟨⟨t, k⟩, hr, he⟩ := Option.map_eq_some_iff.mp h
  obtain ⟨h1, h2⟩ := Prod.mk.inj he
  exact ⟨t, h1 ▸ hr, (Prod.mk.inj h2).1⟩

/-- The same run for `CarrierPhaseCountsAllPairs`. -/
theorem test_witness_CarrierPhaseCountsAllPairs :
    (ready 0 0 0 .space 0 80).Inv ∧ (ready 0 0 0 .space 0 80).mode = .ready
      ∧ ∃ t, runFills [8, 8] (ready 0 0 0 .space 0 80) = some (t, 1) ∧ t.mode = .ready :=
  ⟨test_witness_CounterIsPairsMinusFlips.1, rfl, test_witness_CounterIsPairsMinusFlips.2.2.1⟩

/-- Ten and nine pairs from a counter of zero: `R + 3` (95 section 3.4); the first batch alone stays below `R`, both together reach it. -/
theorem test_witness_TimedSwitchIsDeterministic :
    (ready 0 0 0 .space 0 80).Inv ∧ (ready 0 0 0 .space 0 80).mode = .ready ∧ (ready 0 0 0 .space 0 80).cnt = 0
      ∧ (ready 0 0 0 .space 0 80).buflenTrue = true
      ∧ (∀ n ∈ ([10, 9] : List Count), 2 * n.toNat ≤ (ready 0 0 0 .space 0 80).capacity)
      ∧ (totalPairs [10, 9] : Int) = (ready 0 0 0 .space 0 80).cfg.opR + (3 : Nat)
      ∧ ((3 : Nat) : Int) < (ready 0 0 0 .space 0 80).cfg.opR
      ∧ (totalPairs [10] : Int) < (ready 0 0 0 .space 0 80).cfg.opR
      ∧ (ready 0 0 0 .space 0 80).cfg.opR ≤ (totalPairs [10, 9] : Int) :=
  ⟨ready_inv _ _ _ (by decide), rfl, rfl, rfl, List.forall_mem_cons.mpr ⟨by decide, List.forall_mem_singleton.mpr (by decide)⟩, by decide, by decide,
    by decide, by decide⟩

/-- Reset has the invariant and a step; so has a state with tables held, about to be reset. -/
theorem test_witness_StepKeepsInvariant :
    State.Inv { ready 3 10 5 .mark 1 80 with port := [.reset] }
      ∧ ∃ t, step { ready 3 10 5 .mark 1 80 with port := [.reset] } = .next t := by
  have h := ready_inv .mark 1 80 (by decide : (3 : Word).toNat < 4 ∧ (10 : Word).toNat < 11 ∧ (5 : Word).toNat < 6)
  exact ⟨⟨h.1, h.2, h.3, h.4, h.5, h.6, h.7, h.8, h.9, h.10⟩, _, rfl⟩

/-- A state with the invariant and a FILL of 40 pairs pending, which completes; behind a buffer of 79 bytes it is refused. -/
theorem test_witness_StepAlwaysCompletes :
    State.Inv { ready 3 10 5 .mark 1 80 with port := [.bus 0x1F20000028] }
      ∧ ends (fun _ => true) (step { ready 3 10 5 .mark 1 80 with port := [.bus 0x1F20000028] }) = true
      ∧ State.Inv { ready 3 10 5 .mark 1 80 with bufSize := some 79, port := [.bus 0x1F20000028] }
      ∧ step { ready 3 10 5 .mark 1 80 with bufSize := some 79, port := [.bus 0x1F20000028] } = .refused .buflenUntrue := by
  have h := ready_inv .mark 1 80 (by decide : (3 : Word).toNat < 4 ∧ (10 : Word).toNat < 11 ∧ (5 : Word).toNat < 6)
  exact ⟨⟨h.1, h.2, h.3, h.4, h.5, h.6, h.7, h.8, h.9, h.10⟩, by decide +kernel,
    ⟨h.1, h.2, h.3, fun _ _ _ _ => rfl, h.5, h.6, h.7, h.8, h.9, h.10⟩, rfl⟩

/-- The reference widths, and those of capacities that are no powers of two; a state with the invariant, every phase at its last value. -/
theorem test_witness_PhaseRegistersFitTheirWidths :
    2 ≤ 10 ∧ phaseBits 10 = 4 ∧ phaseBits 17 = 5 ∧ phaseBits 6666 = 13 ∧ phaseBits 2 = 1 ∧ (ready 3 10 5 .mark 0 0).Inv
      ∧ phaseBits (ready 3 10 5 .mark 0 0).caps.cMax ≤ 4 ∧ phaseBits (ready 3 10 5 .mark 0 0).caps.lMax ≤ 13 :=
  ⟨by decide, by decide, by decide, by decide, by decide, ready_inv _ _ _ (by decide), by decide, by decide⟩

/-- Both capacities at their lower edge, and the tone capacity at its upper one: 65535 squared is below 2^32. -/
theorem test_witness_InvariantHoldsAtReset : smallest.Legal ∧ Capacities.Legal ⟨1000, 65535⟩ ∧ ¬Capacities.Legal ⟨16, 65536⟩ := by decide

/-- A step of an instance that is not the reference one. -/
theorem test_witness_CapacitiesAreFixed :
    ends (fun t => t.caps == smallest) (step { State.resetOf smallest with port := [.bus 0x1800000014] }) = true := by decide +kernel

/-- `EntryWithinAmplitude`: a legal configuration, at both edges of the amplitude. -/
theorem test_witness_EntryWithinAmplitude :
    small.Legal Capacities.reference ∧ CfgRegs.Legal ⟨1, 1, 1, 1, 1, 1, 1, 0⟩ Capacities.reference :=
  ⟨test_witness_legal.1, test_witness_legal.2.1⟩

/-- The three transitions: RESET, BUILD, a fault. -/
theorem test_witness_ModeTransitions :
    ends (fun t => t.mode == .unbuilt) (step (faulted [.reset])) = true
      ∧ ends (fun t => t.mode == .ready) (step { unbuilt small with port := [.bus 0x1F10000000] }) = true
      ∧ ends (fun t => t.mode == .faulted) (step { unbuilt small with port := [.bus 0x1F00000000] }) = true :=
  ⟨by decide, by decide +kernel, by decide +kernel⟩

/-- A write while Faulted, RESET, and a buffer handed over. -/
theorem test_witness_FaultRecordIsSticky :
    ((faulted [.bus 0x1800000014]).mode = .faulted ∧ ∃ t, step (faulted [.bus 0x1800000014]) = .next t)
      ∧ ((faulted [.reset]).mode = .faulted ∧ ∃ t, step (faulted [.reset]) = .next t)
      ∧ (faulted [.handOver [0xEE]]).mode = .faulted ∧ ∃ t, step (faulted [.handOver [0xEE]]) = .next t ∧ t.buf ≠ (faulted []).buf :=
  ⟨⟨rfl, _, rfl⟩, ⟨rfl, _, rfl⟩, rfl, _, rfl, by decide⟩

/-- BUILD loads tables, RESET discards them. -/
theorem test_witness_TablesChangeOnlyByBuildAndReset :
    ends (fun t => t.tables.isSome) (step { unbuilt small with port := [.bus 0x1F10000000] }) = true
      ∧ ends (fun t => t.tables.isNone) (step { ready 0 0 0 .space 0 0 with port := [.reset] }) = true :=
  ⟨by decide +kernel, by decide +kernel⟩

/-- A configuration register written, and reset. -/
theorem test_witness_ConfigurationIsLocked :
    ends (fun t => t.cfg != State.reset.cfg) (step { State.reset with port := [.bus 0x1700000001] }) = true
      ∧ ends (fun t => t.cfg != small) (step { unbuilt small with port := [.reset] }) = true :=
  ⟨by decide +kernel, by decide +kernel⟩

/-- BUILD activates Mark, FILL 0 changes the counter, RESET clears it. -/
theorem test_witness_SynthesisStateWriters :
    ends (fun t => t.tone != .space) (step { unbuilt { small with t0 := 1 } with port := [.bus 0x1F10000000] }) = true
      ∧ ends (fun t => t.cnt != 16) (step { ready 0 0 0 .space 16 0 with port := [.bus 0x1F20000000] }) = true
      ∧ ends (fun t => t.cnt != 16) (step { ready 0 0 0 .space 16 0 with port := [.reset] }) = true :=
  ⟨by decide +kernel, by decide +kernel, by decide +kernel⟩

/-- A FILL of one pair, and a buffer handed over. -/
theorem test_witness_BufferWriters :
    ends (fun t => t.buf != []) (step { ready 0 0 0 .space 0 2 with port := [.bus 0x1F20000001] }) = true
      ∧ ends (fun t => t.buf != []) (step { State.reset with port := [.handOver [0xEE]] }) = true :=
  ⟨by decide +kernel, by decide⟩

end Sys2Proof.Tests
end

