-- ==== Sys2Proof/Proofs/Encoding.lean ====
section
/-! SUPPORT. What the decoder answers for a transaction given by its fields (30 R94), and the opcode table's masks and matches as conditions
on those fields (30 R96). The statements of 30_encoding.md are short uses of these. -/

open Sys2Proof Sys2Proof.Machine

namespace Sys2Proof

/-! ## Words and their fields -/

theorem exists_eq_busWord (w : BusWord) : ∃ rw idx data, w = busWord rw idx data := ⟨_, _, _, (busWord_fields w).symm⟩

theorem exists_eq_cmdWord (w : Word) : ∃ op arg, w = cmdWord op arg := ⟨_, _, (cmdWord_fields w).symm⟩

@[simp] theorem busWord_inj {rw rw' : BitVec 1} {idx idx' : BitVec 4} {data data' : Word} :
    busWord rw idx data = busWord rw' idx' data' ↔ rw = rw' ∧ idx = idx' ∧ data = data' := by
  constructor
  · intro h
    exact ⟨by simpa using congrArg (·.extractLsb' 36 1) h, by simpa using congrArg (·.extractLsb' 32 4) h,
      by simpa using congrArg (·.extractLsb' 0 32) h⟩
  · rintro ⟨rfl, rfl, rfl⟩
    rfl

@[simp] theorem cmdWord_inj {op op' : BitVec 4} {arg arg' : Count} : cmdWord op arg = cmdWord op' arg' ↔ op = op' ∧ arg = arg' := by
  constructor
  · intro h
    exact ⟨by simpa using congrArg (·.extractLsb' 28 4) h, by simpa using congrArg (·.extractLsb' 0 28) h⟩
  · rintro ⟨rfl, rfl⟩
    rfl

/-- Bit 36 is the direction of the transaction (30 R92). -/
@[simp] theorem busWord_getElem_direction (rw : BitVec 1) (idx : BitVec 4) (data : Word) : (busWord rw idx data)[36] = rw[0] := by
  conv_rhs => rw [getElem_congr_coll (busWord_rw rw idx data).symm]
  rw [BitVec.getElem_extractLsb', BitVec.getLsbD_eq_getElem]

/-- The count of a FILL stands in the low bits of the transaction (30 R93). -/
@[simp] theorem busWord_cmdWord_arg (rw : BitVec 1) (idx op : BitVec 4) (arg : Count) :
    (busWord rw idx (cmdWord op arg)).extractLsb' 0 28 = arg := by
  apply BitVec.eq_of_toNat_eq
  have := arg.isLt
  rw [toNat_field, toNat_busWord, toNat_cmdWord]
  omega

/-- `FILL n` as a number (30 R96). -/
theorem ofNat_eq_cmdWord_fill (n : Count) : BitVec.ofNat 32 (0x20000000 + n.toNat) = cmdWord 2#4 n := by
  apply BitVec.eq_of_toNat_eq
  have := n.isLt
  rw [toNat_cmdWord, BitVec.toNat_ofNat, BitVec.toNat_ofNat]
  omega

/-! ## The decoder, row by row -/

@[simp] theorem decode_busWord_read (idx : BitVec 4) (data : Word) : decode (busWord 0#1 idx data) = .rdreg (Reg.ofIdx idx) := by
  simp [decode]

theorem decode_busWord_write {idx : BitVec 4} (data : Word) (h : idx ≠ 15#4) :
    decode (busWord 1#1 idx data) = .wrreg (Reg.ofIdx idx) data := by
  simp [decode, h]

@[simp] theorem decode_busWord_cmd (word : Word) : decode (busWord 1#1 15#4 word) = decodeCmd word := by
  simp [decode]

@[simp] theorem decodeCmd_build : decodeCmd (cmdWord 1#4 0#28) = .build := by
  simp [decodeCmd]

@[simp] theorem decodeCmd_fill (n : Count) : decodeCmd (cmdWord 2#4 n) = .fill n := by
  simp [decodeCmd]

theorem reservedCmd_wellFormed_iff {word : Word} : (Instr.reservedCmd word).WellFormed ↔ isCommandWord word = false := by
  simp only [Instr.WellFormed, Instr.wellFormed, Bool.not_eq_true']

theorem wrreg_wellFormed_iff {r : Reg} {v : Word} : (Instr.wrreg r v).WellFormed ↔ r.idx ≠ 15#4 := by
  simp only [Instr.WellFormed, Instr.wellFormed, bne_iff_ne, Ne, Reg.idx_eq_fifteen]

theorem isCommandWord_cmdWord {op : BitVec 4} {arg : Count} :
    isCommandWord (cmdWord op arg) = true ↔ (op = 1#4 ∧ arg = 0#28) ∨ op = 2#4 := by
  have hb : (0x10000000#32 : Word) = cmdWord 1#4 0#28 := by decide
  simp [isCommandWord, hb]

theorem decodeCmd_reserved {word : Word} (h : isCommandWord word = false) : decodeCmd word = .reservedCmd word := by
  obtain ⟨op, arg, rfl⟩ := exists_eq_cmdWord word
  have hrow := mt isCommandWord_cmdWord.mpr (ne_true_of_eq_false h)
  rw [not_or] at hrow
  simp [decodeCmd, hrow]

/-- A word written to `CMD` is BUILD's, a FILL's, or neither (30 R93). -/
theorem commandWord_cases (word : Word) :
    word = cmdWord 1#4 0#28 ∨ (∃ n, word = cmdWord 2#4 n) ∨ isCommandWord word = false := by
  obtain ⟨op, arg, rfl⟩ := exists_eq_cmdWord word
  cases h : isCommandWord (cmdWord op arg) with
  | false => exact .inr (.inr rfl)
  | true =>
    rcases isCommandWord_cmdWord.mp h with ⟨rfl, rfl⟩ | rfl
    · exact .inl rfl
    · exact .inr (.inl ⟨arg, rfl⟩)

/-- A transaction is a read, a write to a register other than `CMD`, or a write to `CMD` (30 R94). -/
theorem busWord_cases (w : BusWord) :
    (∃ idx data, w = busWord 0#1 idx data) ∨ (∃ idx data, idx ≠ 15#4 ∧ w = busWord 1#1 idx data) ∨ ∃ word, w = busWord 1#1 15#4 word := by
  obtain ⟨rw, idx, data, rfl⟩ := exists_eq_busWord w
  rcases BitVec.eq_zero_or_eq_one rw with rfl | rfl
  · exact .inl ⟨idx, data, rfl⟩
  · by_cases h : idx = 15#4
    · exact .inr (.inr ⟨data, by rw [h]⟩)
    · exact .inr (.inl ⟨idx, data, h, rfl⟩)

theorem decodeCmd_wellFormed (word : Word) : (decodeCmd word).WellFormed := by
  rcases commandWord_cases word with rfl | ⟨n, rfl⟩ | h
  · rw [decodeCmd_build]; rfl
  · rw [decodeCmd_fill]; rfl
  · rwa [decodeCmd_reserved h, reservedCmd_wellFormed_iff]

theorem encode_decodeCmd (word : Word) : encode (decodeCmd word) = busWord 1#1 15#4 word := by
  rcases commandWord_cases word with rfl | ⟨n, rfl⟩ | h
  · rw [decodeCmd_build]; rfl
  · rw [decodeCmd_fill]; rfl
  · rw [decodeCmd_reserved h]; rfl

/-- A word is a reserved command exactly when it is no command word. -/
theorem decodeCmd_eq_reservedCmd_iff {word : Word} : decodeCmd word = .reservedCmd word ↔ isCommandWord word = false := by
  refine ⟨fun h => ?_, decodeCmd_reserved⟩
  rw [← reservedCmd_wellFormed_iff, ← h]
  exact decodeCmd_wellFormed word

/-! ## The masks and matches of the opcode table, as conditions on the fields (30 R96) -/

section Rows
variable (rw : BitVec 1) (idx : BitVec 4) (data : Word)

theorem matches_rdreg_row : busWord rw idx data &&& 0x1000000000#37 = 0x0000000000#37 ↔ rw = 0#1 := by
  have hmask : 0x1000000000#37 = busWord (BitVec.allOnes 1) 0#4 0#32 := by decide
  have hmatch : 0x0000000000#37 = busWord 0#1 0#4 0#32 := by decide
  rw [hmask, hmatch, busWord_and, busWord_inj]
  simp only [BitVec.and_allOnes, BitVec.and_zero, and_true]

theorem matches_wrreg_row : busWord rw idx data &&& 0x1000000000#37 = 0x1000000000#37 ↔ rw = 1#1 := by
  have hmask : 0x1000000000#37 = busWord (BitVec.allOnes 1) 0#4 0#32 := by decide
  rw [hmask, busWord_and, busWord_inj]
  simp only [BitVec.and_allOnes, BitVec.and_zero, and_true]
  rfl

theorem matches_reserved_row :
    busWord rw idx data &&& 0x1F00000000#37 = 0x1F00000000#37 ↔ rw = 1#1 ∧ idx = 15#4 := by
  have hmask : 0x1F00000000#37 = busWord (BitVec.allOnes 1) (BitVec.allOnes 4) 0#32 := by decide
  rw [hmask, busWord_and, busWord_inj]
  simp only [BitVec.and_allOnes, BitVec.and_zero, and_true]
  rfl

theorem matches_build_row :
    busWord rw idx data &&& 0x1FFFFFFFFF#37 = 0x1F10000000#37 ↔ rw = 1#1 ∧ idx = 15#4 ∧ data = cmdWord 1#4 0#28 := by
  have hmask : 0x1FFFFFFFFF#37 = BitVec.allOnes 37 := by decide
  have hmatch : 0x1F10000000#37 = busWord 1#1 15#4 (cmdWord 1#4 0#28) := by decide
  rw [hmask, hmatch, BitVec.and_allOnes, busWord_inj]

theorem matches_fill_row :
    busWord rw idx data &&& 0x1FF0000000#37 = 0x1F20000000#37 ↔ rw = 1#1 ∧ idx = 15#4 ∧ ∃ n, data = cmdWord 2#4 n := by
  obtain ⟨op, arg, rfl⟩ := exists_eq_cmdWord data
  have hmask : 0x1FF0000000#37 = busWord (BitVec.allOnes 1) (BitVec.allOnes 4) (cmdWord (BitVec.allOnes 4) 0#28) := by decide
  have hmatch : 0x1F20000000#37 = busWord 1#1 15#4 (cmdWord 2#4 0#28) := by decide
  rw [hmask, hmatch, busWord_and, cmdWord_and, busWord_inj, cmdWord_inj]
  simp only [BitVec.and_allOnes, BitVec.and_zero, and_true, cmdWord_inj, exists_and_left, exists_eq']

end Rows

end Sys2Proof

/-! ## The statements -/

/-- Settles O1, row by row: the decoder takes apart the fields the encoder has put together. -/
theorem decodeOfEncodeIsIdentity : Obligations.DecodeOfEncodeIsIdentity := by
  unfold Obligations.DecodeOfEncodeIsIdentity
  intro i hi
  cases i with
  | rdreg r => simp [encode]
  | build => simp [encode]
  | fill n => simp [encode]
  | reservedCmd word =>
    simp [encode, decodeCmd_reserved (reservedCmd_wellFormed_iff.mp hi)]
  | wrreg r v =>
    simp [encode, decode_busWord_write v (wrreg_wellFormed_iff.mp hi)]

/-- Settles O2, by the three forms of a transaction. -/
theorem encodeOfDecodeIsIdentity : Obligations.EncodeOfDecodeIsIdentity := by
  unfold Obligations.EncodeOfDecodeIsIdentity
  intro w
  rcases busWord_cases w with ⟨idx, data, rfl⟩ | ⟨idx, data, h, rfl⟩ | ⟨word, rfl⟩
  · have hmask : 0x0F00000000#37 = busWord 0#1 (BitVec.allOnes 4) 0#32 := by decide
    rw [decode_busWord_read, hmask, busWord_and, BitVec.and_allOnes]
    exact ⟨rfl, by simp, by simp [encode]⟩
  · rw [decode_busWord_write data h]
    exact ⟨by simpa [wrreg_wellFormed_iff] using h, by simp [encode], by simp⟩
  · rw [decode_busWord_cmd, encode_decodeCmd]
    exact ⟨decodeCmd_wellFormed word, fun _ => rfl, by simp⟩

/-- Settles O3: each row's mask and match is a condition on the fields, and under it the decoder answers that row's operation. -/
theorem decodeFollowsOpcodeTable : Obligations.DecodeFollowsOpcodeTable := by
  unfold Obligations.DecodeFollowsOpcodeTable
  refine ⟨fun w => ?_, by decide, fun n => by rw [ofNat_eq_cmdWord_fill, decodeCmd_fill]⟩
  obtain ⟨rw, idx, data, rfl⟩ := exists_eq_busWord w
  simp only [matches_rdreg_row, matches_build_row, matches_fill_row, matches_reserved_row, matches_wrreg_row, busWord_idx,
    busWord_data, ne_eq]
  refine ⟨?rdreg, ?build, ?fill, ?reserved, ?wrreg⟩
  case rdreg =>
    rintro rfl
    exact ⟨Reg.ofIdx idx, Reg.idx_ofIdx idx, decode_busWord_read idx data⟩
  case build =>
    rintro ⟨rfl, rfl, rfl⟩
    rw [decode_busWord_cmd, decodeCmd_build]
  case fill =>
    rintro ⟨rfl, rfl, n, rfl⟩
    rw [decode_busWord_cmd, decodeCmd_fill, busWord_cmdWord_arg]
  case reserved =>
    rintro ⟨rfl, rfl⟩ hbuild hfill
    rcases commandWord_cases data with h | h | h
    · exact absurd ⟨rfl, rfl, h⟩ hbuild
    · exact absurd ⟨rfl, rfl, h⟩ hfill
    · rw [decode_busWord_cmd, decodeCmd_reserved h]
  case wrreg =>
    rintro rfl hidx
    have h : idx ≠ 15#4 := fun h => hidx ⟨rfl, h⟩
    refine ⟨Reg.ofIdx idx, Reg.idx_ofIdx idx, ?_, decode_busWord_write data h⟩
    rw [Reg.idx_ofIdx]
    bv_omega

/-- Settles O19: the words that are no command words are the reserved ones, and outside Faulted each raises ProtocolViolation(0). -/
theorem reservedCommandRaises : Obligations.ReservedCommandRaises := by
  unfold Obligations.ReservedCommandRaises
  refine ⟨fun word => ?_, fun s word hmode => ?_⟩
  · obtain ⟨op, arg, rfl⟩ := exists_eq_cmdWord word
    have hdecode : decode (busWord 1 15 (cmdWord op arg)) = decodeCmd (cmdWord op arg) := decode_busWord_cmd _
    rw [hdecode, decodeCmd_eq_reservedCmd_iff, ← Bool.not_eq_true, isCommandWord_cmdWord, cmdWord_op, cmdWord_arg]
    by_cases h : op = 1#4 <;> simp [h]
  · have hne : s.mode ≠ .faulted := by rcases hmode with h | h <;> simp [h]
    exact if_neg hne

end

