-- ==== Sys2Proof/Proofs/TableBuilder.lean ====
section
/-! SUPPORT. What BUILD answers, as an equation per mode and outcome of the validation (40 R120 to R122), and what a fault leaves for the host
to read and to issue (60 R228, R231). The statements of 40_table_builder.md on BUILD itself are short uses of these. -/

open Sys2Proof Sys2Proof.Machine

namespace Sys2Proof.Machine

/-! ## The validation -/

/-- A range test of 40 R122 fails exactly on the two sides of its range. -/
theorem outside_iff_not_inside (x lo hi : Int) : (x < lo ∨ x > hi) ↔ ¬(lo ≤ x ∧ x ≤ hi) := by omega

/-- The validation is a search for the first failing test, in register order (40 R122). -/
theorem firstInvalid_eq_find? (g : CfgRegs) (caps : Capacities) [DecidablePred (g.passes caps)] :
    g.firstInvalid caps = ((List.range 7).find? fun i => ¬g.passes caps i).map (BitVec.ofNat 8) := by
  have hrange : List.range 7 = [0, 1, 2, 3, 4, 5, 6] := rfl
  have h0 : _ ↔ ¬g.passes caps 0 := outside_iff_not_inside g.opC 1 caps.cMax
  have h1 : _ ↔ ¬g.passes caps 1 := outside_iff_not_inside g.opLm 1 caps.lMax
  have h2 : _ ↔ ¬g.passes caps 2 := outside_iff_not_inside g.opLs 1 caps.lMax
  have h3 : g.opDnum < 1 ↔ ¬g.passes caps 3 := not_le.symm
  have h4 : g.opDden < 1 ↔ ¬g.passes caps 4 := not_le.symm
  have h5 : _ ↔ ¬g.passes caps 5 := outside_iff_not_inside g.opA 1 127
  have h6 : g.opR < 1 ↔ ¬g.passes caps 6 := not_le.symm
  simp only [CfgRegs.firstInvalid, h0, h1, h2, h3, h4, h5, h6, hrange]
  split_ifs <;> simp [*]

/-- Where the tests before `k` pass and test `k` fails, the validation answers `k`. -/
theorem firstInvalid_eq_some {g : CfgRegs} {caps : Capacities} {k : Nat} (hk : k < 7) (hpass : ∀ j < k, g.passes caps j)
    (hfail : ¬g.passes caps k) : g.firstInvalid caps = some (BitVec.ofNat 8 k) := by
  classical
  have hfind : ((List.range 7).find? fun i => ¬g.passes caps i) = some k :=
    List.find?_range_eq_some.mpr ⟨by simpa using hfail, by simpa using hk, by simpa using hpass⟩
  rw [firstInvalid_eq_find?, hfind, Option.map_some]

/-! ## BUILD, case by case -/

theorem exec_build_of_faulted {s : State} (hm : s.mode = .faulted) : exec .build s = .next s := by
  simp [exec, execBuild, hm]

theorem exec_build_of_ready {s : State} (hm : s.mode = .ready) : exec .build s = .next (s.raise .protocolViolation 2) := by
  simp [exec, execBuild, hm]

theorem exec_build_of_invalid {s : State} {k : Byte} (hm : s.mode = .unbuilt) (hv : s.cfg.firstInvalid s.caps = some k) :
    exec .build s = .next (s.raise .configurationError k) := by
  simp [exec, execBuild, hm, hv]

theorem exec_build_of_legal {s : State} (hm : s.mode = .unbuilt) (hl : s.cfg.Legal s.caps) :
    exec .build s = .next (s.load s.cfg.tables s.cfg.opT0) := by
  simp [exec, execBuild, hm, legal_iff.mp hl]

/-! ## What the host finds afterwards -/

/-- With no fault recorded, `STATUS` is the mode alone (10 R36). -/
theorem statusWord_of_noFault {s : State} (he : s.err = .none) (hi : s.errInfo = 0) :
    s.statusWord = BitVec.ofNat 32 s.mode.code := by
  rw [State.statusWord, he, hi]
  cases s.mode <;> rfl

/-- A fault entry shows in `STATUS` and in no other register (60 R228). -/
theorem readReg_raise_of_ne_status {r : Reg} (hr : r ≠ .status) (s : State) (k : Err) (info : Byte) :
    (s.raise k info).readReg r = s.readReg r := by
  cases r with
  | status => exact absurd rfl hr
  | _ => rfl

theorem exec_rdreg (r : Reg) (s : State) : exec (.rdreg r) s = .next (s.setAnswer (s.readReg r)) := rfl

theorem exec_fill_of_faulted {s : State} (hm : s.mode = .faulted) (n : Count) : exec (.fill n) s = .next s := by
  simp [exec, execFill, hm]

end Sys2Proof.Machine

/-! ## The statements -/

/-- Settles O21: a legal configuration passes the validation, and what is loaded keeps the empty fault record. -/
theorem buildLoadsTablesAndZeroPhases : Obligations.BuildLoadsTablesAndZeroPhases := by
  unfold Obligations.BuildLoadsTablesAndZeroPhases
  intro s hm he hi hl
  refine ⟨s.load s.cfg.tables s.cfg.opT0, exec_build_of_legal hm hl, rfl, ?_, by simp⟩
  rw [statusWord_of_noFault (by simpa using he) (by simpa using hi), State.load_mode]
  rfl

/-- Settles O23: the validation finds the first failing test, and BUILD raises its index. -/
theorem buildReportsFirstFailingTest : Obligations.BuildReportsFirstFailingTest := by
  unfold Obligations.BuildReportsFirstFailingTest
  intro s k hm hk hpass hfail
  exact exec_build_of_invalid hm (firstInvalid_eq_some hk hpass hfail)

/-- Settles O24: a BUILD in Ready is a fault entry; what the state it leaves answers follows from its mode and its unchanged registers. -/
theorem secondBuildRefused : Obligations.SecondBuildRefused := by
  unfold Obligations.SecondBuildRefused
  refine ⟨fun s hm => ⟨s.raise .protocolViolation 2, exec_build_of_ready hm, rfl, fun r hr => ?_, fun n => ?_⟩,
    fun s hm => exec_build_of_faulted hm⟩
  · rw [exec_rdreg, readReg_raise_of_ne_status hr]
    rfl
  · exact exec_fill_of_faulted (by simp) n

end

