-- ==== Sys2Proof/Proofs/Synthesizer.lean ====
section
/-! SUPPORT. What the micro-operations and the body of FILL leave in the phases, the tone and the counter (41 R151 to R162); what FILL answers,
as an equation per mode and outcome of its tests (41 R150); and a run of FILLs from below the threshold (41 R168). The statements of
41_streaming_synthesizer.md are short uses of these. -/

open Sys2Proof Sys2Proof.Machine

namespace Sys2Proof.Machine

/-! ## XLATE -/

@[simp] theorem State.setPhase_setPhase (s : State) (t : Tone) (u v : Word) : (s.setPhase t u).setPhase t v = s.setPhase t v := by
  cases t <;> rfl

/-- In range, the translated phase is read back as it was computed, and no other field changes (41 R158, R159). -/
theorem xlate_phases {s t : State} {tab : Tables} (h : s.InRange tab) (hx : xlate s = .ok t) :
    t = s.setPhase s.tone.other (t.phase s.tone.other)
      ∧ t.phase s.tone = s.phase s.tone
      ∧ (t.phase s.tone.other).toNat
          = s.cfg.toneLen s.tone.other * (s.phase s.tone).toNat / s.cfg.toneLen s.tone := by
  obtain ⟨hv, -, -, hp⟩ := inRange_iff.mp h
  obtain ⟨-, -, rfl⟩ := xlate_ok hx
  have hlt := translate_lt (hp s.tone) (toneLen_bounds hv s.tone.other).1
  refine ⟨by rw [State.setPhase_phase], State.setPhase_phase_of_ne s (Tone.ne_other _) _, ?_⟩
  rw [State.setPhase_phase, toNat_ofNat_phase hlt (toneLen_bounds hv _).2]

/-- A second XLATE translates the same active phase, so it stores what is already there (41 R160). -/
theorem xlate_idempotent {s t : State} {tab : Tables} (h : s.InRange tab) (hx : xlate s = .ok t) : xlate t = .ok t := by
  obtain ⟨t', hx', hr⟩ := xlate_completes h
  obtain rfl : t' = t := Except.ok.inj (hx'.symm.trans hx)
  obtain ⟨u, hu, -⟩ := xlate_completes hr
  obtain ⟨-, hactive, -⟩ := xlate_phases h hx
  obtain ⟨-, -, ht⟩ := xlate_ok hx
  obtain ⟨-, -, hu'⟩ := xlate_ok hu
  have htone : t'.tone = s.tone := by rw [ht, State.setPhase_tone]
  have hcfg : t'.cfg = s.cfg := by rw [ht, State.setPhase_cfg]
  rw [htone, hcfg, hactive] at hu'
  have hsame : u = t' := by rw [hu', ht, State.setPhase_setPhase]
  rw [hu, hsame]

/-- XLATE said for the active tone, whichever it is: the translated phase is in range and within one sample of proportion (41 R160). -/
theorem xlate_translates {s : State} {tab : Tables} (h : s.InRange tab) :
    ∃ t, xlate s = .ok t ∧ t = s.setPhase s.tone.other (t.phase s.tone.other)
      ∧ (t.phase s.tone.other).toNat = s.cfg.toneLen s.tone.other * (s.phase s.tone).toNat / s.cfg.toneLen s.tone
      ∧ (t.phase s.tone.other).toNat < s.cfg.toneLen s.tone.other
      ∧ (t.phase s.tone.other).toNat * s.cfg.toneLen s.tone ≤ (s.phase s.tone).toNat * s.cfg.toneLen s.tone.other
      ∧ (s.phase s.tone).toNat * s.cfg.toneLen s.tone.other < ((t.phase s.tone.other).toNat + 1) * s.cfg.toneLen s.tone
      ∧ xlate t = .ok t := by
  obtain ⟨hv, -, -, hp⟩ := inRange_iff.mp h
  obtain ⟨t, hx, -⟩ := xlate_completes h
  obtain ⟨hframe, -, hq⟩ := xlate_phases h hx
  refine ⟨t, hx, hframe, hq, ?_, ?_, ?_, xlate_idempotent h hx⟩
  · rw [hq]
    exact translate_lt (hp s.tone) (toneLen_bounds hv s.tone.other).1
  · rw [hq, Nat.mul_comm (s.phase s.tone).toNat]
    exact Nat.div_mul_le_self _ _
  · rw [hq, Nat.mul_comm (s.phase s.tone).toNat, Nat.mul_comm (_ + 1)]
    exact Nat.lt_mul_div_succ _ (toneLen_bounds hv s.tone).1

/-! ## TSW -/

/-- What TSW leaves in the tone and the counter, on either side of the threshold (41 R162). -/
theorem tsw_tone_cnt {n : Nat} {s t : State} (h : tsw n s = .ok t) :
    t = s.setToneCnt t.tone t.cnt
      ∧ (s.cfg.opR ≤ (s.cnt.toNat + n : Nat) → t.tone = s.tone.other ∧ (t.cnt.toNat : Int) = (s.cnt.toNat + n : Nat) - s.cfg.opR)
      ∧ ((s.cnt.toNat + n : Nat) < s.cfg.opR → t.tone = s.tone ∧ t.cnt.toNat = s.cnt.toNat + n) := by
  rcases tsw_ok h with ⟨hreach, hfit, rfl⟩ | ⟨hbelow, hfit, rfl⟩
  · refine ⟨rfl, fun _ => ⟨rfl, ?_⟩, fun hbelow => absurd hreach (not_le.mpr hbelow)⟩
    rw [State.setToneCnt_cnt, BitVec.toNat_ofNat, Nat.mod_eq_of_lt (by omega)]
    omega
  · exact ⟨rfl, fun hreach => absurd hreach (not_le.mpr hbelow), fun _ => ⟨rfl, by simpa using Nat.mod_eq_of_lt hfit⟩⟩

/-! ## The body of FILL -/

/-- XLATE and TSW change neither the buffer nor the two phases the EMIT loop advances. -/
theorem fillBody_keeps_emitted {n : Nat} {s t : State} (h : fillBody n s = .ok t) :
    ∃ s₁, emitLoop n 0 s = .ok s₁ ∧ t.buf = s₁.buf ∧ t.cph = s₁.cph ∧ t.phase s.tone = s₁.phase s.tone := by
  obtain ⟨s₁, s₂, hemit, hxlate, htsw⟩ := fillBody_ok.mp h
  obtain ⟨-, htone, -⟩ := emitLoop_frame hemit
  obtain ⟨-, -, rfl⟩ := xlate_ok hxlate
  obtain ⟨ht, -, -⟩ := tsw_tone_cnt htsw
  refine ⟨s₁, hemit, by rw [ht]; rfl, by rw [ht]; rfl, ?_⟩
  rw [ht, State.setToneCnt_phase, State.setPhase_phase_of_ne _ (by rw [htone]; exact Tone.ne_other _)]

/-- The EMITs and XLATE touch neither the tone nor the counter, so the body leaves in them what TSW does (41 R162). -/
theorem fillBody_tone_cnt {n : Nat} {s t : State} (h : fillBody n s = .ok t) :
    (s.cfg.opR ≤ (s.cnt.toNat + n : Nat) → t.tone = s.tone.other ∧ (t.cnt.toNat : Int) = (s.cnt.toNat + n : Nat) - s.cfg.opR)
      ∧ ((s.cnt.toNat + n : Nat) < s.cfg.opR → t.tone = s.tone ∧ t.cnt.toNat = s.cnt.toNat + n) := by
  obtain ⟨s₁, s₂, hemit, hxlate, htsw⟩ := fillBody_ok.mp h
  obtain ⟨hsame, htone, hcnt, -⟩ := emitLoop_frame hemit
  obtain ⟨-, -, rfl⟩ := xlate_ok hxlate
  simpa only [State.setPhase_cfg, State.setPhase_cnt, State.setPhase_tone, hsame.cfg, htone, hcnt] using (tsw_tone_cnt htsw).2

/-! ## FILL, case by case -/

theorem exec_fill_of_unbuilt {s : State} (hm : s.mode = .unbuilt) (n : Count) :
    exec (.fill n) s = .next (s.raise .protocolViolation 1) := by
  simp [exec, execFill, hm]

theorem exec_fill_of_shortBuffer {s : State} {n : Count} (hm : s.mode = .ready) (hcap : s.capacity < 2 * n.toNat) :
    exec (.fill n) s = .next (s.raise .preconditionViolation 0) := by
  simp [exec, execFill, hm, hcap]

theorem exec_fill_of_fullCounter {s : State} {n : Count} (hm : s.mode = .ready) (hcap : 2 * n.toNat ≤ s.capacity)
    (hfull : 2 ^ 32 ≤ s.cnt.toNat + n.toNat) : exec (.fill n) s = .next (s.raise .preconditionViolation 1) := by
  simp only [exec, execFill, hm, if_neg (not_lt.mpr hcap), if_pos hfull]

theorem exec_fill_of_admits {s : State} {n : Count} (ha : s.Admits n.toNat) : exec (.fill n) s = toOutcome (fillBody n.toNat s) := by
  obtain ⟨hm, hcap, hfit, htrue⟩ := ha
  simp only [exec, execFill, hm, if_neg (not_lt.mpr hcap), if_neg (not_le.mpr hfit), htrue, Bool.true_eq_false, if_false]

/-- The tables an admitted FILL reads are held and in range. -/
theorem exists_inRange_of_ready {s : State} (h : s.Inv) (hm : s.mode = .ready) : ∃ tab, s.tables = some tab ∧ s.InRange tab := by
  obtain ⟨tab, ht⟩ := Option.ne_none_iff_exists'.mp (h.readyTables hm)
  exact ⟨tab, ht, h.inRange tab ht⟩

/-- An admitted FILL completes with what its body leaves, and keeps the invariant (41 R163, R169). -/
theorem exec_fill_completes {s : State} {n : Count} (h : s.Inv) (ha : s.Admits n.toNat) :
    ∃ t, exec (.fill n) s = .next t ∧ fillBody n.toNat s = .ok t ∧ t.Inv := by
  obtain ⟨tab, ht, hr⟩ := exists_inRange_of_ready h ha.1
  have hexec := exec_fill_of_admits ha
  obtain ⟨-, hcap, hfit, htrue⟩ := ha
  obtain ⟨t, hb, hr'⟩ := fillBody_completes hr ht hcap hfit
  obtain ⟨hsame, hread, hwf⟩ := fillBody_frame hb
  have htab : t.tables = some tab := hsame.tables.trans ht
  refine ⟨t, by rw [hexec, toOutcome_next.mpr hb], hb, ?_⟩
  exact {
    capsLegal := by rw [hsame.caps]; exact h.capsLegal
    bufCanonical := hwf h.bufCanonical
    takenCanonical := by rw [hsame.taken]; exact h.takenCanonical
    bufInside := fun size hs off ho => by
      rw [hsame.bufSize] at hs
      have := capacity_le_of_buflenTrue htrue hs
      rw [hread off (by omega)]
      exact h.bufInside size hs off ho
    errIffFaulted := by rw [hsame.err, hsame.mode]; exact h.errIffFaulted
    record := by rw [hsame.err, hsame.errInfo]; exact h.record
    unbuiltNoTables := by rw [hsame.mode, hsame.tables]; exact h.unbuiltNoTables
    readyTables := by rw [hsame.mode, hsame.tables]; exact h.readyTables
    atRest := by simp [htab]
    inRange := by simpa [htab] using hr' }

/-! ## Runs of FILLs -/

@[simp] theorem totalPairs_nil : totalPairs [] = 0 := rfl

@[simp] theorem totalPairs_cons (n : Count) (ns : List Count) : totalPairs (n :: ns) = n.toNat + totalPairs ns := List.sum_cons

@[simp] theorem totalPairs_append (ns ms : List Count) : totalPairs (ns ++ ms) = totalPairs ns + totalPairs ms := by
  simp [totalPairs]

theorem runFills_cons {n : Count} {ns : List Count} {s t u : State} {flips : Nat} (h : exec (.fill n) s = .next t)
    (hrun : runFills ns t = some (u, flips)) :
    runFills (n :: ns) s = some (u, flips + if t.tone = s.tone then 0 else 1) := by
  simp [runFills, h, hrun]

/-- A run of FILLs from a counter below `R`, too short to reach `R` twice: it completes, and the tone flips in it once or not at all,
as its sum reaches `R` or does not (41 R163, R168). -/
theorem runFills_reaches_threshold_at_most_once {ns : List Count} {s : State} (h : s.Inv) (hm : s.mode = .ready)
    (htrue : s.buflenTrue = true) (hcap : ∀ n ∈ ns, 2 * n.toNat ≤ s.capacity) (hbelow : (s.cnt.toNat : Int) < s.cfg.opR)
    (hsum : ((s.cnt.toNat + totalPairs ns : Nat) : Int) < 2 * s.cfg.opR) :
    ∃ t flips, runFills ns s = some (t, flips)
      ∧ (((s.cnt.toNat + totalPairs ns : Nat) : Int) < s.cfg.opR →
          t.tone = s.tone ∧ flips = 0 ∧ t.cnt.toNat = s.cnt.toNat + totalPairs ns)
      ∧ (s.cfg.opR ≤ (s.cnt.toNat + totalPairs ns : Nat) →
          t.tone = s.tone.other ∧ flips = 1 ∧ (t.cnt.toNat : Int) = (s.cnt.toNat + totalPairs ns : Nat) - s.cfg.opR) := by
  induction ns generalizing s with
  | nil => exact ⟨s, 0, rfl, fun _ => ⟨rfl, rfl, rfl⟩, fun hreach => absurd hreach (not_le.mpr hbelow)⟩
  | cons n ns ih =>
    obtain ⟨hn, hns⟩ := List.forall_mem_cons.mp hcap
    have hR : s.cfg.opR < 2 ^ 31 := sext32_lt s.cfg.r
    rw [totalPairs_cons] at hsum ⊢
    obtain ⟨t, hexec, hb, hinv⟩ := exec_fill_completes (n := n) h ⟨hm, hn, by omega, htrue⟩
    obtain ⟨hsame, -, -⟩ := fillBody_frame hb
    obtain ⟨hflip, hstay⟩ := fillBody_tone_cnt hb
    specialize ih hinv (hsame.mode.trans hm) (hsame.buflenTrue.trans htrue) (by rwa [hsame.capacity])
    rw [hsame.cfg] at ih
    rcases lt_or_ge ((s.cnt.toNat + n.toNat : Nat) : Int) s.cfg.opR with hlt | hge
    case inl =>
      obtain ⟨htone, hcnt⟩ := hstay hlt
      rw [htone, hcnt, Nat.add_assoc] at ih
      obtain ⟨u, flips, hrun, hu⟩ := ih (by omega) (by omega)
      exact ⟨u, flips, by rw [runFills_cons hexec hrun, if_pos htone, Nat.add_zero], hu⟩
    case inr =>
      obtain ⟨htone, hcnt⟩ := hflip hge
      obtain ⟨u, flips, hrun, hrest, -⟩ := ih (by omega) (by omega)
      obtain ⟨hutone, hflips, hucnt⟩ := hrest (by omega)
      refine ⟨u, flips + 1, by rw [runFills_cons hexec hrun, if_neg (by simp [htone])], by omega, fun _ => ?_⟩
      exact ⟨hutone.trans htone, by omega, by omega⟩

end Sys2Proof.Machine

/-! ## The statements -/

/-- Settles O30: EMIT leaves `afterEmit`, whose two writes fall on different offsets and whose phases are one further. -/
theorem emitWritesPairAndAdvances : Obligations.EmitWritesPairAndAdvances := by
  unfold Obligations.EmitWritesPairAndAdvances
  intro s tab i ht hr hcap
  have hemit := emit_completes hr ht hcap
  obtain ⟨tab', bI, bQ, ht', hI, hQ, -, -, -, -, -, hafter⟩ := emit_ok hemit
  obtain rfl : tab = tab' := Option.some.inj (ht.symm.trans ht')
  obtain ⟨hcph, hphase⟩ := afterEmit_phases hr i bI bQ
  have hother := afterEmit_phase_other s i bI bQ
  refine ⟨bI, bQ, s.afterEmit i bI bQ, hI, hQ, by rw [hemit, hafter], ?_, ?_, fun off h h' => ?_, hcph, fun hm => ?_, fun hs => ?_, rfl⟩
  · rw [afterEmit_buf, Memory.read_write_ne _ (by omega), Memory.read_write_same]
  · rw [afterEmit_buf, Memory.read_write_same]
  · rw [afterEmit_buf, Memory.read_write_ne _ h', Memory.read_write_ne _ h]
  · rw [hm] at hphase hother
    exact ⟨hphase, hother⟩
  · rw [hs] at hphase hother
    exact ⟨hphase, hother⟩

/-- Settles O31: XLATE of the active tone, read for Mark and for Space. -/
theorem xlateTranslatesInactivePhase : Obligations.XlateTranslatesInactivePhase := by
  unfold Obligations.XlateTranslatesInactivePhase
  intro s tab hr
  have h := xlate_translates hr
  refine ⟨fun htone => ?_, fun htone => ?_⟩ <;>
  · rw [htone] at h
    exact h

/-- Settles O32: TSW completes, and leaves what `tsw_tone_cnt` says. -/
theorem tswFlipsAtThreshold : Obligations.TswFlipsAtThreshold := by
  unfold Obligations.TswFlipsAtThreshold
  intro s n hR hfit
  obtain ⟨t, h⟩ := tsw_completes hR hfit
  exact ⟨t, h, tsw_tone_cnt h⟩

/-- Settles O33: one equation of FILL per mode and test, and its body as its three parts. -/
theorem fillAdmissionTests : Obligations.FillAdmissionTests := by
  unfold Obligations.FillAdmissionTests
  refine ⟨fun s n => ⟨fun hm => exec_fill_of_faulted hm n, fun hm => exec_fill_of_unbuilt hm n, exec_fill_of_shortBuffer,
    exec_fill_of_fullCounter, fun hm hcap hfit htrue => exec_fill_of_admits ⟨hm, hcap, hfit, htrue⟩⟩, fun s t n => fillBody_ok⟩

/-- Settles O35: the closed form of the EMIT loop, which XLATE and TSW leave standing. -/
theorem fillEmitsClosedForm : Obligations.FillEmitsClosedForm := by
  unfold Obligations.FillEmitsClosedForm
  intro s n tab h ha ht
  obtain ⟨t, hexec, hb, -⟩ := exec_fill_completes h ha
  obtain ⟨s₁, hemit, hbuf, hcph, hphase⟩ := fillBody_keeps_emitted hb
  obtain ⟨hc, hp, hpairs⟩ := emitLoop_closed (h.inRange tab ht) ht hemit
  refine ⟨t, hexec, fun i hi => ?_, by rw [hcph, hc], by rw [hphase, hp]⟩
  obtain ⟨bI, bQ, hI, hQ, hreadI, hreadQ⟩ := hpairs i hi
  rw [Nat.zero_add] at hreadI hreadQ
  exact ⟨bI, bQ, hI, hQ, by rw [hbuf, tc8_toInt, hreadI], by rw [hbuf, tc8_toInt, hreadQ]⟩

/-- Settles O40: no EMIT runs, so XLATE and then TSW run on the state itself, with a batch of no pairs. -/
theorem fillZeroTranslatesAndSwitches : Obligations.FillZeroTranslatesAndSwitches := by
  unfold Obligations.FillZeroTranslatesAndSwitches
  intro s h hm htrue
  obtain ⟨tab, -, hr⟩ := exists_inRange_of_ready h hm
  obtain ⟨t, hexec, hb, -⟩ := exec_fill_completes (n := 0) h ⟨hm, Nat.zero_le _, s.cnt.isLt, htrue⟩
  obtain ⟨hflip, hstay⟩ := fillBody_tone_cnt hb
  obtain ⟨s₁, s₂, hemit, hxlate, htsw⟩ := fillBody_ok.mp hb
  obtain rfl : s = s₁ := Except.ok.inj hemit
  obtain ⟨hxframe, hactive, hinactive⟩ := xlate_phases hr hxlate
  obtain ⟨htframe, -, -⟩ := tsw_tone_cnt htsw
  have hphase (u : Tone) : t.phase u = s₂.phase u := by rw [htframe, State.setToneCnt_phase]
  refine ⟨t, hexec, by rw [htframe, hxframe]; rfl, by rw [hphase, hactive], by rw [hphase, hinactive], ?_⟩
  rw [show (0 : Count).toNat = 0 from rfl, Nat.add_zero] at hflip hstay
  rcases lt_or_ge (s.cnt.toNat : Int) s.cfg.opR with hlt | hge
  · obtain ⟨htone, hcnt⟩ := hstay hlt
    simp [htone, hcnt, not_le.mpr hlt]
  · obtain ⟨htone, hcnt⟩ := hflip hge
    simp [htone, hcnt, hge]

/-- Settles O44: the whole run and each of its beginnings are runs from a counter of zero too short to reach `R` twice. -/
theorem timedSwitchIsDeterministic : Obligations.TimedSwitchIsDeterministic := by
  unfold Obligations.TimedSwitchIsDeterministic
  intro ns s k h hm hcnt htrue hcap hsum hk
  have hzero : s.cnt.toNat = 0 := by rw [hcnt]; rfl
  have key (before after : List Count) (hns : ns = before ++ after) := by
    rw [hns, totalPairs_append] at hsum
    rw [hns] at hcap
    exact runFills_reaches_threshold_at_most_once (ns := before) h hm htrue
      (fun n hn => hcap n (List.mem_append_left _ hn)) (by omega) (by omega)
  simp only [hzero, Nat.zero_add] at key
  obtain ⟨t, flips, hrun, -, hreach⟩ := key ns [] (List.append_nil ns).symm
  obtain ⟨htone, rfl, htcnt⟩ := hreach (by omega)
  refine ⟨t, hrun, htone, by omega, fun before after hns => ?_⟩
  obtain ⟨u, flips, hrun, hbelow, hreach⟩ := key before after hns
  exact ⟨u, flips, hrun, fun hlt => ⟨(hbelow hlt).1, (hbelow hlt).2.1⟩, fun hge => ⟨(hreach hge).1, (hreach hge).2.1⟩⟩

end

