-- ==== Sys2Proof/Proofs/HostAccess.lean ====
section
/-! SUPPORT. The register classes as ranges of indices (10 R28), and what WRREG answers where class and mode allow the write and where they
do not (42 R201, R203). The statements of 42_host_register_access.md are short uses of these. -/

open Sys2Proof Sys2Proof.Machine

namespace Sys2Proof.Machine

variable {s : State} {r q : Reg}

/-! ## The register classes -/

theorem regClass_eq_configuration_iff : regClass r = .configuration ↔ r.idx.toNat ≤ 7 := by cases r <;> decide

theorem regClass_eq_readOnly_iff : regClass r = .readOnly ↔ 9 ≤ r.idx.toNat ∧ r.idx.toNat ≤ 14 := by cases r <;> decide

/-! ## WRREG, case by case -/

/-- No mode lets the host write `CMD`, and Faulted no register at all, so a permitted write is stored. -/
theorem exec_wrreg_of_writable (v : Word) (h : (regClass r).writableIn s.mode = true) :
    exec (.wrreg r v) s = .next (s.writeReg r v) := by
  have hr : r ≠ .cmd := by
    rintro rfl
    cases hm : s.mode <;> simp [regClass, RegClass.writableIn, hm] at h
  have hf : s.mode ≠ .faulted := by
    intro hm
    cases hc : regClass r <;> simp [RegClass.writableIn, hm, hc] at h
  simp [exec, execWrreg, hr, hf, h]

theorem exec_wrreg_of_not_writable (v : Word) (hr : r ≠ .cmd) (hm : s.mode ≠ .faulted)
    (h : (regClass r).writableIn s.mode = false) : exec (.wrreg r v) s = .next (s.raise .protocolViolation 3) := by
  simp [exec, execWrreg, hr, hm, h]

theorem exec_wrreg_configuration (v : Word) (hm : s.mode = .unbuilt) (hr : regClass r = .configuration) :
    exec (.wrreg r v) s = .next (s.writeReg r v) :=
  exec_wrreg_of_writable v (by rw [hm, hr]; rfl)

/-- `STATUS` after a refused write: Faulted, ProtocolViolation, info 3 (10 R36). -/
theorem statusWord_raise_protocolViolation_three (s : State) : (s.raise .protocolViolation 3).statusWord = 0x00000332#32 := by
  rw [State.statusWord, State.raise_err, State.raise_errInfo, State.raise_mode]
  rfl

/-! ## Stores of configuration registers -/

theorem writeReg_configuration_mode (v : Word) (hr : regClass r = .configuration) : (s.writeReg r v).mode = s.mode := by
  rw [writeReg_configuration v hr, State.setCfg_mode]

/-- Stores of different configuration registers commute, as they do on the registers alone (42 R201). -/
theorem writeReg_configuration_comm (hr : regClass r = .configuration) (hq : regClass q = .configuration) (hne : q ≠ r) (v u : Word) :
    (s.writeReg q u).writeReg r v = (s.writeReg r v).writeReg q u := by
  simp only [writeReg_configuration _ hr, writeReg_configuration _ hq, State.setCfg_cfg, CfgRegs.set_comm _ hne]
  rfl

/-- A later store of a configuration register replaces an earlier one, as it does on the registers alone (42 R201). -/
theorem writeReg_configuration_overwrite (hr : regClass r = .configuration) (v u : Word) :
    (s.writeReg r v).writeReg r u = s.writeReg r u := by
  simp only [writeReg_configuration _ hr, State.setCfg_cfg, CfgRegs.set_set]
  rfl

end Sys2Proof.Machine

/-! ## The statements -/

/-- Settles O16: each write is a `writeReg`, which keeps Unbuilt, so the next write is one too; then the laws of two stores. -/
theorem wrregStoresConfiguration : Obligations.WrregStoresConfiguration := by
  unfold Obligations.WrregStoresConfiguration
  intro s r v hm hidx
  have hr := regClass_eq_configuration_iff.mpr hidx
  have hm' : (s.writeReg r v).mode = .unbuilt := (writeReg_configuration_mode v hr).trans hm
  refine ⟨s.writeReg r v, exec_wrreg_configuration v hm hr, readReg_writeReg_same v (.inl hr), fun q hq => readReg_writeReg_ne v hq,
    ?_, fun q u hq hne => ?_, fun u => ?_⟩
  · rw [writeReg_configuration v hr]
    rfl
  · have hq := regClass_eq_configuration_iff.mpr hq
    have hmq : (s.writeReg q u).mode = .unbuilt := (writeReg_configuration_mode u hq).trans hm
    refine ⟨_, _, exec_wrreg_configuration u hm' hq, exec_wrreg_configuration u hm hq, ?_⟩
    rw [exec_wrreg_configuration v hmq hr, writeReg_configuration_comm hr hq hne]
  · refine ⟨_, exec_wrreg_configuration u hm' hr, ?_⟩
    rw [exec_wrreg_configuration u hm hr, writeReg_configuration_overwrite hr]

/-- Settles O18: neither case is writable, so the write is a fault entry, whose `STATUS` word is fixed by its code and info. -/
theorem wrregRefusedByClassAndMode : Obligations.WrregRefusedByClassAndMode := by
  unfold Obligations.WrregRefusedByClassAndMode
  intro s r v h
  have hcmd : r ≠ .cmd := by
    rintro rfl
    simp [Reg.idx] at h
  have hraise : exec (.wrreg r v) s = .next (s.raise .protocolViolation 3) := by
    rcases h with ⟨hlo, hhi, hm⟩ | ⟨hidx, hm⟩
    · have hr := regClass_eq_readOnly_iff.mpr ⟨hlo, hhi⟩
      exact exec_wrreg_of_not_writable v hcmd (by rcases hm with hm | hm <;> simp [hm]) (by rw [hr]; rfl)
    · have hr := regClass_eq_configuration_iff.mpr hidx
      exact exec_wrreg_of_not_writable v hcmd (by simp [hm]) (by rw [hr, hm]; rfl)
  refine ⟨hraise, fun t ht => ?_⟩
  obtain rfl : s.raise .protocolViolation 3 = t := Host.Outcome.next.inj (hraise.symm.trans ht)
  exact statusWord_raise_protocolViolation_three s

end

