-- ==== Sys2Proof/Proofs/Exceptions.lean ====
section
/-! SUPPORT. The `STATUS` word as the bitwise or of its shifted fields (10 R36), and the writes and commands that Faulted discards (60 R231;
those of BUILD and FILL stand with BUILD). The statements of 60_exceptions.md are short uses of these. -/

open Sys2Proof Sys2Proof.Machine

namespace Sys2Proof.Machine

/-! ## The `STATUS` word -/

theorem Err.code_lt (k : Err) : k.code < 2 ^ 4 := by cases k <;> decide

theorem Mode.code_lt (m : Mode) : m.code < 2 ^ 2 := by cases m <;> decide

theorem statusWord_toNat (s : State) : s.statusWord.toNat = s.errInfo.toNat <<< 8 ||| s.err.code <<< 4 ||| s.mode.code := by
  have herr := Nat.mod_eq_of_lt s.err.code_lt
  have hmode := Nat.mod_eq_of_lt s.mode.code_lt
  calc s.statusWord.toNat
    _ = (0#16 ++ s.errInfo ++ BitVec.ofNat 4 s.err.code ++ 0#2 ++ BitVec.ofNat 2 s.mode.code).toNat := rfl
    _ = s.errInfo.toNat <<< 8 ||| s.err.code <<< 4 ||| s.mode.code := by
      simp only [BitVec.toNat_append, BitVec.toNat_ofNat, herr, hmode, Nat.shiftLeft_or_distrib, ← Nat.shiftLeft_add, Nat.zero_mod,
        Nat.zero_shiftLeft, Nat.zero_or, Nat.or_zero]

theorem statusWord_eq_or (s : State) :
    s.statusWord
      = BitVec.ofNat 32 (s.errInfo.toNat <<< 8) ||| BitVec.ofNat 32 (s.err.code <<< 4) ||| BitVec.ofNat 32 s.mode.code := by
  rw [← BitVec.ofNat_or, ← BitVec.ofNat_or, ← statusWord_toNat, BitVec.ofNat_toNat, BitVec.setWidth_eq]

/-! ## What Faulted discards -/

theorem exec_reservedCmd_of_faulted {s : State} (hm : s.mode = .faulted) (word : Word) : exec (.reservedCmd word) s = .next s :=
  if_pos hm

theorem exec_wrreg_of_faulted {s : State} {r : Reg} (hm : s.mode = .faulted) (hr : r ≠ .cmd) (v : Word) :
    exec (.wrreg r v) s = .next s :=
  (if_neg hr).trans (if_pos hm)

end Sys2Proof.Machine

/-! ## The statements -/

/-- Settles O15: the three writes are `raise` itself; its `STATUS` word is the or of the fields it leaves. -/
theorem faultEntryWritesStatusOnly : Obligations.FaultEntryWritesStatusOnly := by
  unfold Obligations.FaultEntryWritesStatusOnly
  intro s k info
  exact ⟨rfl, statusWord_eq_or (s.raise k info), rfl⟩

/-- Settles O20, operation by operation; a WRREG of `CMD`, which is refused, is not well formed. -/
theorem faultedDiscardsWritesAndCommands : Obligations.FaultedDiscardsWritesAndCommands := by
  unfold Obligations.FaultedDiscardsWritesAndCommands
  refine fun s hm => ⟨fun i hwf hread => ?_, fun r => exec_rdreg r s⟩
  cases i with
  | rdreg r => exact absurd rfl (hread r)
  | build => exact exec_build_of_faulted hm
  | fill n => exact exec_fill_of_faulted hm n
  | reservedCmd word => exact exec_reservedCmd_of_faulted hm word
  | wrreg r v =>
    have hr : r ≠ .cmd := mt Reg.idx_eq_fifteen.mpr (wrreg_wellFormed_iff.mp hwf)
    exact exec_wrreg_of_faulted hm hr v

end

section
/-! SUPPORT. Every update of the state keeps the invariant, so every operation and every step does; every operation of the block completes but the
FILL whose launch premise is broken (70 R268). -/

open Sys2Proof Sys2Proof.Machine

namespace Sys2Proof.Machine

/-! ## Every update keeps the invariant -/

/-- A recorded fault leaves the tables, and what holds of them, as they were (60 R228). -/
theorem raise_inv {s : State} {k : Err} {info : Byte} (h : s.Inv) (hk : k ≠ .none) (hr : recordLegal k info = true) :
    (s.raise k info).Inv where
  capsLegal := h.capsLegal
  bufCanonical := h.bufCanonical
  takenCanonical := h.takenCanonical
  bufInside := h.bufInside
  errIffFaulted := by simpa using hk
  record := hr
  unbuiltNoTables := by simp
  readyTables := by simp
  atRest := h.atRest
  inRange := h.inRange

theorem setAnswer_inv {s : State} (h : s.Inv) (v : Word) : (s.setAnswer v).Inv :=
  ⟨h.capsLegal, h.bufCanonical, h.takenCanonical, h.bufInside, h.errIffFaulted, h.record, h.unbuiltNoTables, h.readyTables, h.atRest, h.inRange⟩

theorem setBuflen_inv {s : State} (h : s.Inv) (v : Word) : (s.setBuflen v).Inv :=
  ⟨h.capsLegal, h.bufCanonical, h.takenCanonical, h.bufInside, h.errIffFaulted, h.record, h.unbuiltNoTables, h.readyTables, h.atRest, h.inRange⟩

/-- While no tables are held, nothing ties the configuration registers (10 R34). -/
theorem setCfg_inv {s : State} (h : s.Inv) (ht : s.tables = none) (g : CfgRegs) : (s.setCfg g).Inv where
  capsLegal := h.capsLegal
  bufCanonical := h.bufCanonical
  takenCanonical := h.takenCanonical
  bufInside := h.bufInside
  errIffFaulted := h.errIffFaulted
  record := h.record
  unbuiltNoTables := h.unbuiltNoTables
  readyTables := h.readyTables
  atRest := h.atRest
  inRange := by simp [ht]

/-- Phases of zero are in the range of every validated configuration (40 R127). -/
theorem load_inRange {s : State} (hv : s.cfg.firstInvalid s.caps = none) (tone : Tone) :
    (s.load s.cfg.tables tone).InRange s.cfg.tables :=
  ⟨hv, rfl, (carrierLen_bounds hv).1, (toneLen_bounds hv .mark).1, (toneLen_bounds hv .space).1⟩

theorem load_inv {s : State} (h : s.Inv) (hm : s.mode = .unbuilt) (hv : s.cfg.firstInvalid s.caps = none) (tone : Tone) :
    (s.load s.cfg.tables tone).Inv where
  capsLegal := h.capsLegal
  bufCanonical := h.bufCanonical
  takenCanonical := h.takenCanonical
  bufInside := h.bufInside
  errIffFaulted := by simpa [hm] using h.errIffFaulted
  record := h.record
  unbuiltNoTables := by simp
  readyTables := by simp
  atRest := by simp
  inRange := by
    rintro t ⟨⟩
    exact load_inRange hv tone

theorem resetBlock_inv {s : State} (h : s.Inv) : s.resetBlock.Inv where
  capsLegal := h.capsLegal
  bufCanonical := h.bufCanonical
  takenCanonical := h.takenCanonical
  bufInside := h.bufInside
  errIffFaulted := by simp
  record := by simp [recordLegal]
  unbuiltNoTables := by simp
  readyTables := by simp
  atRest := by simp [State.AtRest]
  inRange := by simp

/-- A buffer handed over is canonical and ends where its bytes do; the one taken back was canonical (log 5). -/
theorem handOver_inv {s : State} (h : s.Inv) (bytes : List Byte) : (s.handOver bytes).Inv where
  capsLegal := h.capsLegal
  bufCanonical := Memory.wf_ofBytes 0 bytes
  takenCanonical := fun m hm => by
    rcases List.mem_append.mp hm with hm | hm
    · exact h.takenCanonical m hm
    · rw [List.mem_singleton.mp hm]
      exact h.bufCanonical
  bufInside := fun size hs off ho => by
    obtain rfl : bytes.length = size := Option.some.inj hs
    have hread := Memory.read_ofBytes 0 bytes off
    rwa [Nat.zero_add, List.getElem?_eq_none ho] at hread
  errIffFaulted := h.errIffFaulted
  record := h.record
  unbuiltNoTables := h.unbuiltNoTables
  readyTables := h.readyTables
  atRest := h.atRest
  inRange := h.inRange

theorem resetOf_inv {k : Capacities} (h : k.Legal) : (State.resetOf k).Inv where
  capsLegal := h
  bufCanonical := rfl
  takenCanonical := by simp [State.resetOf]
  bufInside := by simp [State.resetOf]
  errIffFaulted := by simp [State.resetOf]
  record := rfl
  unbuiltNoTables := fun _ => rfl
  readyTables := by simp [State.resetOf]
  atRest := fun _ => ⟨rfl, rfl, rfl, rfl, rfl⟩
  inRange := by simp [State.resetOf]

/-- Every operation keeps the invariant (41 R163). -/
theorem exec_inv {i : Instr} {s t : State} (h : s.Inv) (he : exec i s = .next t) : t.Inv := by
  rcases exec_cases he with ⟨r, -, rfl⟩ | ⟨-, -, rfl⟩ | ⟨-, k, info, hk, hr, rfl⟩ | ⟨hm, r, v, -, -, rfl⟩ | ⟨-, v, -, rfl⟩
    | ⟨hm, -, hv, rfl⟩ | ⟨n, rfl, ha, -⟩
  · exact setAnswer_inv h _
  · exact h
  · exact raise_inv h hk hr
  · exact setCfg_inv h (h.unbuiltNoTables hm) _
  · exact setBuflen_inv h v
  · exact load_inv h hm hv _
  · obtain ⟨u, hu, -, hinv⟩ := exec_fill_completes h ha
    obtain rfl : u = t := Host.Outcome.next.inj (hu.symm.trans he)
    exact hinv

theorem step_inv {s t : State} (h : s.Inv) (hs : step s = .next t) : t.Inv := by
  rcases step_cases hs with ⟨-, rfl⟩ | ⟨rest, -, rfl⟩ | ⟨bytes, rest, -, rfl⟩ | ⟨w, rest, -, he⟩
  · exact h
  · exact resetBlock_inv (accept_inv rest h)
  · exact handOver_inv (accept_inv rest h) bytes
  · exact exec_inv (accept_inv rest h) he

/-! ## A step, move by move -/

section Moves
variable {s : State} {rest : List HostMove}

theorem step_of_idle (hp : s.port = []) : step s = .next s := by
  rw [step, hp]

theorem step_of_reset (hp : s.port = .reset :: rest) : step s = .next (s.accept rest).resetBlock := by
  rw [step, hp]

theorem step_of_handOver {bytes : List Byte} (hp : s.port = .handOver bytes :: rest) :
    step s = .next ((s.accept rest).handOver bytes) := by
  rw [step, hp]

theorem step_of_bus {w : BusWord} (hp : s.port = .bus w :: rest) : step s = exec (decode w) (s.accept rest) := by
  rw [step, hp]

end Moves

/-! ## Which operations complete -/

theorem exec_build_completes (s : State) : ∃ t, exec .build s = .next t := by
  cases hm : s.mode with
  | faulted => exact ⟨_, exec_build_of_faulted hm⟩
  | ready => exact ⟨_, exec_build_of_ready hm⟩
  | unbuilt =>
    cases hv : s.cfg.firstInvalid s.caps with
    | some k => exact ⟨_, exec_build_of_invalid hm hv⟩
    | none => exact ⟨_, exec_build_of_legal hm (legal_iff.mpr hv)⟩

theorem exec_reservedCmd_completes (s : State) (word : Word) : ∃ t, exec (.reservedCmd word) s = .next t := by
  by_cases hm : s.mode = .faulted
  · exact ⟨_, exec_reservedCmd_of_faulted hm word⟩
  · exact ⟨_, if_neg hm⟩

theorem exec_wrreg_completes {r : Reg} (hr : r ≠ .cmd) (s : State) (v : Word) : ∃ t, exec (.wrreg r v) s = .next t := by
  by_cases hm : s.mode = .faulted
  · exact ⟨_, exec_wrreg_of_faulted hm hr v⟩
  · cases hw : (regClass r).writableIn s.mode with
    | true => exact ⟨_, exec_wrreg_of_writable v hw⟩
    | false => exact ⟨_, exec_wrreg_of_not_writable v hr hm hw⟩

/-- A FILL passes its two tests in Ready while `BUFLEN` is larger than the real buffer: it is admitted on a broken launch premise (70 R268). -/
def State.FillPremiseBroken (s : State) (n : Count) : Prop :=
  s.mode = .ready ∧ 2 * n.toNat ≤ s.capacity ∧ s.cnt.toNat + n.toNat < 2 ^ 32 ∧ s.buflenTrue = false

theorem exec_fill_of_premiseBroken {s : State} {n : Count} (h : s.FillPremiseBroken n) : exec (.fill n) s = .refused .buflenUntrue := by
  obtain ⟨hm, hcap, hfit, htrue⟩ := h
  simp only [exec, execFill, hm, if_neg (not_lt.mpr hcap), if_neg (not_le.mpr hfit), htrue, if_true]

/-- A FILL answers a next state at once, breaks its launch premise, or is admitted (41 R150). -/
theorem exec_fill_trichotomy (s : State) (n : Count) :
    (∃ t, exec (.fill n) s = .next t) ∨ s.FillPremiseBroken n ∨ s.Admits n.toNat := by
  cases hm : s.mode with
  | faulted => exact .inl ⟨_, exec_fill_of_faulted hm n⟩
  | unbuilt => exact .inl ⟨_, exec_fill_of_unbuilt hm n⟩
  | ready =>
    rcases lt_or_ge s.capacity (2 * n.toNat) with hcap | hcap
    · exact .inl ⟨_, exec_fill_of_shortBuffer hm hcap⟩
    rcases lt_or_ge (s.cnt.toNat + n.toNat) (2 ^ 32) with hfit | hfull
    · cases htrue : s.buflenTrue with
      | false => exact .inr (.inl ⟨hm, hcap, hfit, htrue⟩)
      | true => exact .inr (.inr ⟨hm, hcap, hfit, htrue⟩)
    · exact .inl ⟨_, exec_fill_of_fullCounter hm hcap hfull⟩

/-- From the invariant every well-formed operation completes, but for the FILL with a broken launch premise (60 R224). -/
theorem exec_completes {i : Instr} {s : State} (h : s.Inv) (hi : i.WellFormed) :
    (∃ t, exec i s = .next t) ∨ ∃ n, i = .fill n ∧ s.FillPremiseBroken n := by
  cases i with
  | rdreg r => exact .inl ⟨_, exec_rdreg r s⟩
  | build => exact .inl (exec_build_completes s)
  | reservedCmd word => exact .inl (exec_reservedCmd_completes s word)
  | wrreg r v => exact .inl (exec_wrreg_completes (mt Reg.idx_eq_fifteen.mpr (wrreg_wellFormed_iff.mp hi)) s v)
  | fill n =>
    rcases exec_fill_trichotomy s n with hnext | hbroken | ha
    · exact .inl hnext
    · exact .inr ⟨n, rfl, hbroken⟩
    · obtain ⟨t, ht, -⟩ := exec_fill_completes h ha
      exact .inl ⟨t, ht⟩

theorem decode_wellFormed (w : BusWord) : (decode w).WellFormed := (encodeOfDecodeIsIdentity w).1

/-! ## The launch premise -/

/-- `BUFLEN` is true when it is at most the real size, where that is known (70 R268, log 6). -/
theorem buflenTrue_iff (s : State) : s.buflenTrue = true ↔ ∀ size, s.bufSize = some size → s.buflen.toNat ≤ size := by
  unfold State.buflenTrue
  cases hs : s.bufSize with
  | none => simp
  | some size => exact decide_eq_true_iff.trans ⟨fun h k hk => Option.some.inj hk ▸ h, fun h => h size rfl⟩

theorem toOutcome_ne_refused (e : Except Fault State) (r : Refusal) : toOutcome e ≠ .refused r := by
  cases e <;> simp [toOutcome]

/-- An operation that answers a next state is not refused. -/
theorem not_refused_of_completes {i : Instr} {s : State} {r : Refusal} (h : ∃ t, exec i s = .next t) : exec i s ≠ .refused r := by
  obtain ⟨t, ht⟩ := h
  simp [ht]

/-- Only the FILL with a broken launch premise is refused as such. -/
theorem premiseBroken_of_refused {i : Instr} {s : State} (h : exec i s = .refused .buflenUntrue) :
    ∃ n, i = .fill n ∧ s.FillPremiseBroken n := by
  cases i with
  | rdreg r => exact absurd h (not_refused_of_completes ⟨_, exec_rdreg r s⟩)
  | build => exact absurd h (not_refused_of_completes (exec_build_completes s))
  | reservedCmd word => exact absurd h (not_refused_of_completes (exec_reservedCmd_completes s word))
  | wrreg r v =>
    by_cases hr : r = .cmd
    · simp [exec, execWrreg, hr] at h
    · exact absurd h (not_refused_of_completes (exec_wrreg_completes hr s v))
  | fill n =>
    rcases exec_fill_trichotomy s n with hnext | hbroken | ha
    · exact absurd h (not_refused_of_completes hnext)
    · exact ⟨n, rfl, hbroken⟩
    · exact absurd ((exec_fill_of_admits ha).symm.trans h) (toOutcome_ne_refused _ _)

end Sys2Proof.Machine

/-! ## The statements -/

/-- Settles O47: a step is a reset, a hand-over or an operation, and each of them keeps the invariant. -/
theorem stepKeepsInvariant : Obligations.StepKeepsInvariant := by
  unfold Obligations.StepKeepsInvariant
  exact fun s t h hs => step_inv h hs

/-- Settles O46: the reference capacities are legal ones. -/
theorem invariantHoldsAtReset : Obligations.InvariantHoldsAtReset := by
  unfold Obligations.InvariantHoldsAtReset
  exact ⟨resetOf_inv (k := Capacities.reference) (by decide), fun k hk => resetOf_inv hk⟩

/-- Settles O48: of the host's moves only a transaction can stop, and its operation is a well-formed one. -/
theorem stepAlwaysCompletes : Obligations.StepAlwaysCompletes := by
  unfold Obligations.StepAlwaysCompletes
  intro s h
  cases hp : s.port with
  | nil => exact .inl ⟨_, step_of_idle hp⟩
  | cons move rest =>
    cases move with
    | reset => exact .inl ⟨_, step_of_reset hp⟩
    | handOver bytes => exact .inl ⟨_, step_of_handOver hp⟩
    | bus w =>
      have hstep := step_of_bus hp
      rcases exec_completes (accept_inv rest h) (decode_wellFormed w) with ⟨t, ht⟩ | ⟨n, hn, hbroken⟩
      · exact .inl ⟨t, hstep.trans ht⟩
      · have href : step s = .refused .buflenUntrue := by rw [hstep, hn, exec_fill_of_premiseBroken hbroken]
        obtain ⟨hm, hcap, -, htrue⟩ := hbroken
        exact .inr ⟨href, hm, htrue, w, rest, n, rfl, hn, hcap⟩

/-- Settles O34: the refusal of a FILL with a broken launch premise, and that no other operation answers it. -/
theorem fillNeedsTrueBuflen : Obligations.FillNeedsTrueBuflen := by
  unfold Obligations.FillNeedsTrueBuflen
  exact ⟨buflenTrue_iff, fun s n hm hcap hfit htrue => exec_fill_of_premiseBroken ⟨hm, hcap, hfit, htrue⟩,
    fun s i h => premiseBroken_of_refused h⟩

end

section
/-! SUPPORT. What a step can change of each part of the state, and by which move of the host: each statement is one reading of `step_cases` and
`exec_cases`. The host's own moves beside it (60 R225, 70 R260, R278). -/

open Sys2Proof Sys2Proof.Machine

namespace Sys2Proof.Machine

/-! ## What an operation can change -/

section Operations
variable {i : Instr} {s t : State}

/-- No operation touches the capacities or the real size of the buffer (10 R43, 70 R268). -/
theorem exec_keeps_caps_bufSize (h : exec i s = .next t) : t.caps = s.caps ∧ t.bufSize = s.bufSize := by
  rcases exec_cases h with ⟨r, -, rfl⟩ | ⟨-, -, rfl⟩ | ⟨-, k, info, -, -, rfl⟩ | ⟨-, r, v, -, -, rfl⟩ | ⟨-, v, -, rfl⟩ | ⟨-, -, -, rfl⟩
    | ⟨n, -, -, hb⟩
  · exact ⟨rfl, rfl⟩
  · exact ⟨rfl, rfl⟩
  · exact ⟨rfl, rfl⟩
  · exact ⟨rfl, rfl⟩
  · exact ⟨rfl, rfl⟩
  · exact ⟨rfl, rfl⟩
  · obtain ⟨hsame, -, -⟩ := fillBody_frame hb
    exact ⟨hsame.caps, hsame.bufSize⟩

/-- What neither the answer nor `BUFLEN` is part of changes by a fault entry, a write of a configuration register, a successful BUILD or the body
of a FILL only. -/
theorem change_of_exec {α : Type} (f : State → α) (hanswer : ∀ s v, f (s.setAnswer v) = f s) (hbuflen : ∀ s v, f (s.setBuflen v) = f s)
    (h : exec i s = .next t) (hne : f t ≠ f s) :
    (s.mode ≠ .faulted ∧ ∃ k info, k ≠ .none ∧ t = s.raise k info)
      ∨ (s.mode = .unbuilt ∧ ∃ r v, i = .wrreg r v ∧ regClass r = .configuration ∧ t = s.setCfg (s.cfg.set r v))
      ∨ (s.mode = .unbuilt ∧ i = .build ∧ s.cfg.firstInvalid s.caps = none ∧ t = s.load s.cfg.tables s.cfg.opT0)
      ∨ (∃ n : Count, i = .fill n ∧ s.Admits n.toNat ∧ fillBody n.toNat s = .ok t) := by
  rcases exec_cases h with ⟨r, -, rfl⟩ | ⟨-, -, rfl⟩ | ⟨hm, k, info, hk, -, rfl⟩ | hwrite | ⟨-, v, -, rfl⟩ | hload | hfill
  · exact absurd (hanswer _ _) hne
  · exact absurd rfl hne
  · exact .inl ⟨hm, k, info, hk, rfl⟩
  · exact .inr (.inl hwrite)
  · exact absurd (hbuflen _ _) hne
  · exact .inr (.inr (.inl hload))
  · exact .inr (.inr (.inr hfill))

/-- Only a fault entry and a successful BUILD write the mode (10 R38). -/
theorem mode_change_of_exec (h : exec i s = .next t) (hne : t.mode ≠ s.mode) :
    (s.mode = .unbuilt ∧ t.mode = .ready ∧ s.cfg.Legal s.caps ∧ i = .build) ∨ (s.mode ≠ .faulted ∧ t.mode = .faulted ∧ t.err ≠ .none) := by
  rcases change_of_exec State.mode State.setAnswer_mode State.setBuflen_mode h hne with ⟨hm, k, info, hk, rfl⟩ | ⟨-, r, v, -, -, rfl⟩
    | ⟨hm, hi, hv, rfl⟩ | ⟨n, -, -, hb⟩
  · exact .inr ⟨hm, rfl, hk⟩
  · exact absurd rfl hne
  · exact .inl ⟨hm, rfl, legal_iff.mpr hv, hi⟩
  · exact absurd (fillBody_frame hb).1.mode hne

/-- Only a successful BUILD loads tables (10 R39). -/
theorem tables_change_of_exec (h : exec i s = .next t) (hne : t.tables ≠ s.tables) :
    s.mode = .unbuilt ∧ t.mode = .ready ∧ i = .build := by
  rcases change_of_exec State.tables State.setAnswer_tables State.setBuflen_tables h hne with ⟨-, k, info, -, rfl⟩ | ⟨-, r, v, -, -, rfl⟩
    | ⟨hm, hi, -, rfl⟩ | ⟨n, -, -, hb⟩
  · exact absurd rfl hne
  · exact absurd rfl hne
  · exact ⟨hm, rfl, hi⟩
  · exact absurd (fillBody_frame hb).1.tables hne

/-- Only a WRREG in Unbuilt writes a configuration register (10 R34). -/
theorem cfg_change_of_exec (h : exec i s = .next t) (hne : t.cfg ≠ s.cfg) :
    s.mode = .unbuilt ∧ ∃ r v, i = .wrreg r v ∧ r.idx.toNat ≤ 7 := by
  rcases change_of_exec State.cfg State.setAnswer_cfg State.setBuflen_cfg h hne with ⟨-, k, info, -, rfl⟩ | ⟨hm, r, v, hi, hr, -⟩
    | ⟨-, -, -, rfl⟩ | ⟨n, -, -, hb⟩
  · exact absurd rfl hne
  · exact ⟨hm, r, v, hi, regClass_eq_configuration_iff.mp hr⟩
  · exact absurd rfl hne
  · exact absurd (fillBody_frame hb).1.cfg hne

/-- The five registers of SynthesisState (10 R20). -/
def State.synthesis (s : State) : Word × Word × Word × Tone × Word := (s.cph, s.mph, s.sph, s.tone, s.cnt)

theorem synthesis_ne_iff :
    t.synthesis ≠ s.synthesis ↔ t.cph ≠ s.cph ∨ t.mph ≠ s.mph ∨ t.sph ≠ s.sph ∨ t.tone ≠ s.tone ∨ t.cnt ≠ s.cnt := by
  simp only [State.synthesis, ne_eq, Prod.mk.injEq]
  tauto

/-- Only BUILD in Unbuilt and FILL in Ready write SynthesisState (10 R20). -/
theorem synthesis_change_of_exec (h : exec i s = .next t) (hne : t.synthesis ≠ s.synthesis) :
    (s.mode = .unbuilt ∧ i = .build) ∨ (s.mode = .ready ∧ ∃ n, i = .fill n) := by
  rcases change_of_exec State.synthesis (fun _ _ => rfl) (fun _ _ => rfl) h hne with ⟨-, k, info, -, rfl⟩ | ⟨-, r, v, -, -, rfl⟩
    | ⟨hm, hi, -⟩ | ⟨n, hi, ha, -⟩
  · exact absurd rfl hne
  · exact absurd rfl hne
  · exact .inl ⟨hm, hi⟩
  · exact .inr ⟨ha.1, n, hi⟩

/-- Only an admitted FILL writes the buffer (20 R62, R69). -/
theorem buf_change_of_exec (h : exec i s = .next t) (hne : t.buf ≠ s.buf) : ∃ n, i = .fill n ∧ s.Admits n.toNat := by
  rcases change_of_exec State.buf State.setAnswer_buf State.setBuflen_buf h hne with ⟨-, k, info, -, rfl⟩ | ⟨-, r, v, -, -, rfl⟩
    | ⟨-, -, -, rfl⟩ | ⟨n, hi, ha, -⟩
  · exact absurd rfl hne
  · exact absurd rfl hne
  · exact absurd rfl hne
  · exact ⟨n, hi, ha⟩

/-- In Faulted an operation at most returns a value (60 R231). -/
theorem exec_of_faulted (hm : s.mode = .faulted) (h : exec i s = .next t) : t = { s with answer := t.answer } := by
  rcases exec_cases h with ⟨r, -, rfl⟩ | ⟨-, -, rfl⟩ | ⟨hm', -⟩ | ⟨hm', -⟩ | ⟨hm', -⟩ | ⟨hm', -⟩ | ⟨n, -, ⟨hm', -⟩, -⟩
  · rfl
  · rfl
  · exact absurd hm hm'
  · simp [hm] at hm'
  · exact absurd hm hm'
  · simp [hm] at hm'
  · simp [hm] at hm'

end Operations

/-! ## What a step can change -/

/-- What neither the port nor a hand-over touches changes by RESET or by the operation of a transaction only. -/
theorem change_of_step {α : Type} (f : State → α) (haccept : ∀ s rest, f (s.accept rest) = f s) (hhand : ∀ s bytes, f (s.handOver bytes) = f s)
    {s t : State} (h : step s = .next t) (hne : f t ≠ f s) :
    (∃ rest, s.port = .reset :: rest)
      ∨ ∃ w rest, s.port = .bus w :: rest ∧ exec (decode w) (s.accept rest) = .next t ∧ f t ≠ f (s.accept rest) := by
  rcases step_cases h with ⟨-, rfl⟩ | ⟨rest, hp, -⟩ | ⟨bytes, rest, -, rfl⟩ | ⟨w, rest, hp, he⟩
  · exact absurd rfl hne
  · exact .inl ⟨rest, hp⟩
  · exact absurd ((hhand _ _).trans (haccept _ _)) hne
  · exact .inr ⟨w, rest, hp, he, by rwa [haccept]⟩

/-- The real size of the buffer changes by a hand-over only; RESET leaves it (log 6). -/
theorem handOver_of_bufSize_change {s t : State} (h : step s = .next t) (hne : t.bufSize ≠ s.bufSize) :
    ∃ bytes rest, s.port = .handOver bytes :: rest := by
  rcases step_cases h with ⟨-, rfl⟩ | ⟨rest, -, rfl⟩ | ⟨bytes, rest, hp, -⟩ | ⟨w, rest, -, he⟩
  · exact absurd rfl hne
  · exact absurd rfl hne
  · exact ⟨bytes, rest, hp⟩
  · exact absurd (exec_keeps_caps_bufSize he).2 hne

/-- The buffer changes by a hand-over or by an admitted FILL only; RESET leaves it (70 R260, log 11). -/
theorem buf_change_of_step {s t : State} (h : step s = .next t) (hne : t.buf ≠ s.buf) :
    (∃ bytes rest, s.port = .handOver bytes :: rest)
      ∨ ∃ w rest n, s.port = .bus w :: rest ∧ decode w = .fill n ∧ s.Admits n.toNat := by
  rcases step_cases h with ⟨-, rfl⟩ | ⟨rest, -, rfl⟩ | ⟨bytes, rest, hp, -⟩ | ⟨w, rest, hp, he⟩
  · exact absurd rfl hne
  · exact absurd rfl hne
  · exact .inl ⟨bytes, rest, hp⟩
  · obtain ⟨n, hn, ha⟩ := buf_change_of_exec he hne
    exact .inr ⟨w, rest, n, hp, hn, ha⟩

theorem step_keeps_caps {s t : State} (h : step s = .next t) : t.caps = s.caps := by
  rcases step_cases h with ⟨-, rfl⟩ | ⟨rest, -, rfl⟩ | ⟨bytes, rest, -, rfl⟩ | ⟨w, rest, -, he⟩
  · rfl
  · rfl
  · rfl
  · exact (exec_keeps_caps_bufSize he).1

/-- In Faulted a move other than RESET changes nothing but the host's side: buffers, port and answer (60 R229). -/
theorem step_of_faulted {s t : State} (hm : s.mode = .faulted) (h : step s = .next t) :
    (∃ rest, s.port = .reset :: rest) ∨ t = { s with buf := t.buf, bufSize := t.bufSize, taken := t.taken, port := t.port, answer := t.answer } := by
  rcases step_cases h with ⟨-, rfl⟩ | ⟨rest, hp, -⟩ | ⟨bytes, rest, -, rfl⟩ | ⟨w, rest, -, he⟩
  · exact .inr rfl
  · exact .inl ⟨rest, hp⟩
  · exact .inr rfl
  · exact .inr (by rw [exec_of_faulted (s := s.accept rest) hm he]; rfl)

theorem mode_change_of_step {s t : State} (h : step s = .next t) (hne : t.mode ≠ s.mode) :
    (t.mode = .unbuilt ∧ ∃ rest, s.port = .reset :: rest)
      ∨ (s.mode = .unbuilt ∧ t.mode = .ready ∧ s.cfg.Legal s.caps ∧ ∃ w rest, s.port = .bus w :: rest ∧ decode w = .build)
      ∨ (s.mode ≠ .faulted ∧ t.mode = .faulted ∧ t.err ≠ .none) := by
  rcases change_of_step State.mode State.accept_mode State.handOver_mode h hne with ⟨rest, hp⟩ | ⟨w, rest, hp, he, hne'⟩
  · obtain rfl : (s.accept rest).resetBlock = t := Host.Outcome.next.inj ((step_of_reset hp).symm.trans h)
    exact .inl ⟨rfl, rest, hp⟩
  · rcases mode_change_of_exec he hne' with ⟨hm, hm', hl, hi⟩ | hfault
    · exact .inr (.inl ⟨hm, hm', hl, w, rest, hp, hi⟩)
    · exact .inr (.inr hfault)

theorem tables_change_of_step {s t : State} (h : step s = .next t) (hne : t.tables ≠ s.tables) :
    (∃ rest, s.port = .reset :: rest)
      ∨ (s.mode = .unbuilt ∧ t.mode = .ready ∧ ∃ w rest, s.port = .bus w :: rest ∧ decode w = .build) := by
  rcases change_of_step State.tables State.accept_tables State.handOver_tables h hne with hreset | ⟨w, rest, hp, he, hne'⟩
  · exact .inl hreset
  · obtain ⟨hm, hm', hi⟩ := tables_change_of_exec he hne'
    exact .inr ⟨hm, hm', w, rest, hp, hi⟩

/-! ## The host's own moves -/

/-- At reset every register reads 0, `STATUS` for want of a fault (10 R44). -/
theorem readReg_resetOf (k : Capacities) (r : Reg) : (State.resetOf k).readReg r = 0 := by
  cases r with
  | status => exact statusWord_of_noFault rfl rfl
  | _ => rfl

/-- The fields RESET leaves alone are no registers (log 11). -/
theorem readReg_resetBlock (s : State) (r : Reg) : s.resetBlock.readReg r = 0 := by
  have hread : s.resetBlock.readReg r = (State.resetOf s.caps).readReg r := by cases r <;> rfl
  rw [hread, readReg_resetOf]

/-- A number of at most 37 bits is the transaction with those bits (30 R92). -/
theorem decodeTableWord_of_lt {w : Nat} (h : w < 2 ^ 37) : decodeTableWord 40 w = some (decode (BitVec.ofNat 37 w)) := by
  simp only [decodeTableWord, decodeNat, Nat.mod_eq_of_lt (show w < 2 ^ 40 by omega), if_pos h]

end Sys2Proof.Machine

/-! ## The statements -/

/-- Settles O49: no move of the host writes the capacities. -/
theorem capacitiesAreFixed : Obligations.CapacitiesAreFixed := by
  unfold Obligations.CapacitiesAreFixed
  exact fun s t h => step_keeps_caps h

/-- Settles O50: RESET, a successful BUILD and a fault entry are the writers of the mode. -/
theorem modeTransitions : Obligations.ModeTransitions := by
  unfold Obligations.ModeTransitions
  exact fun s t h hne => mode_change_of_step h hne

/-- Settles O51: without RESET a step from Faulted keeps every register and the tables; the buffer then changes by no FILL, which needs Ready. -/
theorem faultRecordIsSticky : Obligations.FaultRecordIsSticky := by
  unfold Obligations.FaultRecordIsSticky
  intro s t hm h
  refine (step_of_faulted hm h).imp_right fun hframe => ⟨hframe, by rw [hframe]; rfl, ?_⟩
  rintro (hbuf | hsize)
  · rcases buf_change_of_step h hbuf with hhand | ⟨w, rest, n, -, -, hready, -⟩
    · exact hhand
    · simp [hm] at hready
  · exact handOver_of_bufSize_change h hsize

/-- Settles O52: BUILD is the one operation that writes the tables. -/
theorem tablesChangeOnlyByBuildAndReset : Obligations.TablesChangeOnlyByBuildAndReset := by
  unfold Obligations.TablesChangeOnlyByBuildAndReset
  exact fun s t h hne => tables_change_of_step h hne

/-- Settles O53: WRREG of a configuration register is the one operation that writes one. -/
theorem configurationIsLocked : Obligations.ConfigurationIsLocked := by
  unfold Obligations.ConfigurationIsLocked
  intro s t h hne
  rcases change_of_step State.cfg State.accept_cfg State.handOver_cfg h hne with hreset | ⟨w, rest, hp, he, hne'⟩
  · exact .inl hreset
  · obtain ⟨hm, r, v, hi, hr⟩ := cfg_change_of_exec he hne'
    exact .inr ⟨hm, w, rest, r, v, hp, hi, hr⟩

/-- Settles O54: BUILD and FILL are the operations that write SynthesisState. -/
theorem synthesisStateWriters : Obligations.SynthesisStateWriters := by
  unfold Obligations.SynthesisStateWriters
  intro s t h hne
  rcases change_of_step State.synthesis (fun _ _ => rfl) (fun _ _ => rfl) h (synthesis_ne_iff.mpr hne) with hreset | ⟨w, rest, hp, he, hne'⟩
  · exact .inl hreset
  · exact .inr ⟨w, rest, hp, synthesis_change_of_exec (s := s.accept rest) he hne'⟩

/-- Settles O55: an admitted FILL is the one operation that writes the buffer, and none changes its size. -/
theorem bufferWriters : Obligations.BufferWriters := by
  unfold Obligations.BufferWriters
  intro s t h
  refine ⟨fun hbuf => ?_, handOver_of_bufSize_change h⟩
  rcases buf_change_of_step h hbuf with hhand | ⟨w, rest, n, hp, hn, hm, hcap, -, htrue⟩
  · exact .inl hhand
  · exact .inr ⟨hm, htrue, w, rest, n, hp, hn, hcap⟩

/-- Settles O7: the first move of the port is taken from it and performed; a number is placed there as its 37 bits. -/
theorem stepRunsDecodedOperation : Obligations.StepRunsDecodedOperation := by
  unfold Obligations.StepRunsDecodedOperation
  refine ⟨fun s w rest hp => step_of_bus hp, fun s w hw => ⟨decodeTableWord_of_lt hw, ?_⟩⟩
  have hp : (s.withFetchWord 40 w).port = .bus (BitVec.ofNat 37 w) :: s.port := by
    rw [State.withFetchWord, Nat.mod_eq_of_lt (by omega)]
  exact step_of_bus hp

/-- Settles O8: the hand-over's bytes are read back from the buffer they make. -/
theorem idleAndBufferMoves : Obligations.IdleAndBufferMoves := by
  unfold Obligations.IdleAndBufferMoves
  refine ⟨fun s hp => step_of_idle hp, fun s bytes rest hp => ⟨_, step_of_handOver hp, fun i => ?_, rfl, rfl⟩⟩
  simpa using Memory.read_ofBytes 0 bytes i

/-- Settles O9: RESET is `resetBlock` in every mode; what else leaves Faulted or changes the tables follows from the transitions. -/
theorem resetMoveRestoresResetState : Obligations.ResetMoveRestoresResetState := by
  unfold Obligations.ResetMoveRestoresResetState
  refine ⟨fun s rest hp => ⟨_, step_of_reset hp, readReg_resetBlock _, rfl, rfl, rfl, rfl, rfl, rfl, rfl, rfl, rfl, rfl, rfl, rfl⟩,
    fun s t hm h hne => ?_, fun s t hm h hne => ?_⟩
  · rcases mode_change_of_step h (by rwa [hm]) with ⟨-, hreset⟩ | ⟨hm', -⟩ | ⟨hm', -⟩
    · exact hreset
    · simp [hm] at hm'
    · exact absurd hm hm'
  · rcases tables_change_of_step h hne with hreset | ⟨hm', -⟩
    · exact hreset
    · exact absurd hm' hm

/-- Settles O10: the fields of the reset state, read off. -/
theorem resetStateIsAllZero : Obligations.ResetStateIsAllZero := by
  unfold Obligations.ResetStateIsAllZero
  exact ⟨fun k => ⟨readReg_resetOf k, rfl, rfl, rfl, rfl, rfl, rfl, rfl, rfl⟩, rfl⟩

end

section
/-! SUPPORT. The `STATUS` word as a sum of its fields, from which each field is read off (10 R36), and the widths of the phase registers
(10 R21 to R23). -/

open Sys2Proof Sys2Proof.Machine

namespace Sys2Proof.Machine

/-! ## The `STATUS` word -/

/-- The fields of `STATUS` do not overlap, so their or is their sum (10 R36). -/
theorem statusWord_toNat_add (s : State) : s.statusWord.toNat = s.errInfo.toNat * 256 + s.err.code * 16 + s.mode.code := by
  have herr := s.err.code_lt
  have hmode := s.mode.code_lt
  rw [statusWord_toNat, Nat.lor_assoc, ← Nat.shiftLeft_add_eq_or_of_lt (hmode.trans (by decide : 2 ^ 2 < 2 ^ 4)),
    ← Nat.shiftLeft_add_eq_or_of_lt (i := 8) (by rw [Nat.shiftLeft_eq]; omega), Nat.shiftLeft_eq, Nat.shiftLeft_eq, Nat.add_assoc]

/-- The mode is the only one with code 2 (10 R36). -/
theorem Mode.code_eq_two_iff {m : Mode} : m.code = 2 ↔ m = .faulted := by cases m <;> decide

theorem faultLevel_iff (s : State) : s.faultLevel = true ↔ s.mode = .faulted := beq_iff_eq

/-- The fault records the block can produce, one by one (60 R221 to R223). -/
theorem recordLegal_iff {k : Err} {info : Byte} :
    recordLegal k info = true ↔ match k with
      | .none => info = 0
      | .configurationError => info.toNat < 7
      | .preconditionViolation => info.toNat < 2
      | .protocolViolation => info.toNat < 4 := by
  cases k <;> simp [recordLegal, Nat.lt_succ_iff]

/-! ## The widths of the phase registers -/

/-- A width is `ceil(log2)`: enough for the capacity, and one bit less is not (92 open parameters). -/
theorem phaseBits_bounds {n : Nat} (h : 2 ≤ n) (h' : n ≤ 2 ^ 32) : 2 ^ (phaseBits n - 1) < n ∧ n ≤ 2 ^ phaseBits n := by
  have hlog : Nat.log2 (n - 1) < 32 := (Nat.log2_lt (by omega)).mpr (by omega)
  have hbits : phaseBits n - 1 = Nat.log2 (n - 1) := by
    rw [phaseBits, min_eq_right (by omega), Nat.add_sub_cancel]
  refine ⟨?_, le_two_pow_phaseBits le_rfl h' (by omega)⟩
  have := Nat.log2_self_le (show n - 1 ≠ 0 by omega)
  rw [hbits]
  omega

/-- The bits of a word below `2 ^ width` are zero from the width on. -/
theorem getLsbD_eq_false_of_lt {v : Word} {width i : Nat} (h : v.toNat < 2 ^ width) (hi : width ≤ i) : v.getLsbD i = false :=
  Nat.testBit_lt_two_pow (h.trans_le (Nat.pow_le_pow_right (by decide) hi))

/-- Every phase fits its register: at rest it is zero, and with tables held it is below its cycle length (41 R156). -/
theorem phases_fit {s : State} (h : s.Inv) :
    s.cph.toNat < 2 ^ s.caps.carrierBits ∧ s.mph.toNat < 2 ^ s.caps.toneBits ∧ s.sph.toNat < 2 ^ s.caps.toneBits := by
  cases ht : s.tables with
  | none =>
    obtain ⟨hc, hm, hs, -, -⟩ := h.atRest ht
    rw [hc, hm, hs]
    exact ⟨Nat.two_pow_pos _, Nat.two_pow_pos _, Nat.two_pow_pos _⟩
  | some tab =>
    obtain ⟨hv, -, hc, hm, hs⟩ := h.inRange tab ht
    exact ⟨hc.trans_le (carrierLen_bounds hv).2, hm.trans_le (toneLen_bounds hv .mark).2, hs.trans_le (toneLen_bounds hv .space).2⟩

end Sys2Proof.Machine

/-! ## The statements -/

/-- Settles O11: the answer is the register's value; that of `STATUS` is the sum of its fields. -/
theorem rdregReturnsRegister : Obligations.RdregReturnsRegister := by
  unfold Obligations.RdregReturnsRegister
  intro s r
  refine ⟨s.readReg r, exec_rdreg r s, ?_⟩
  cases r with
  | tone => cases ht : s.tone <;> simp [State.readReg, Tone.code, ht]
  | status => exact statusWord_toNat_add s
  | _ => rfl

/-- Settles O12: the width by its logarithm; the zeros above it because every phase fits. -/
theorem phaseRegistersFitTheirWidths : Obligations.PhaseRegistersFitTheirWidths := by
  unfold Obligations.PhaseRegistersFitTheirWidths
  refine ⟨fun n h h' => phaseBits_bounds h h', by decide, by decide, fun s h i => ?_⟩
  obtain ⟨hc, hm, hs⟩ := phases_fit h
  exact ⟨fun hi => getLsbD_eq_false_of_lt hc hi, fun hi => ⟨getLsbD_eq_false_of_lt hm hi, getLsbD_eq_false_of_lt hs hi⟩⟩

/-- Settles O13: each field is a quotient and remainder of the sum. -/
theorem statusWordFields : Obligations.StatusWordFields := by
  unfold Obligations.StatusWordFields
  intro s
  have hsum := statusWord_toNat_add s
  have herr := s.err.code_lt
  have hmode := s.mode.code_lt
  have hinfo := s.errInfo.isLt
  have hmodeField : (s.statusWord.extractLsb' 0 2).toNat = s.mode.code := by rw [toNat_field]; omega
  refine ⟨hmodeField, BitVec.eq_of_toNat_eq ?_, ?_, BitVec.eq_of_toNat_eq ?_, BitVec.eq_of_toNat_eq ?_, ?_⟩
  · rw [toNat_field]; change _ = 0; omega
  · rw [toNat_field]; omega
  · rw [toNat_field]; omega
  · rw [toNat_field]; change _ = 0; omega
  · rw [faultLevel_iff, ← Mode.code_eq_two_iff, ← hmodeField, ← BitVec.toNat_inj]
    rfl

/-- Settles O14: the fault record fixes the word in Faulted, the mode outside it. -/
theorem statusWordIsOneOfFifteen : Obligations.StatusWordIsOneOfFifteen := by
  unfold Obligations.StatusWordIsOneOfFifteen
  intro s h
  have hword : s.statusWord = BitVec.ofNat 32 (s.errInfo.toNat * 256 + s.err.code * 16 + s.mode.code) := by
    rw [← statusWord_toNat_add, BitVec.ofNat_toNat, BitVec.setWidth_eq]
  have hrecord := recordLegal_iff.mp h.record
  rw [hword]
  cases he : s.err with
  | none =>
    have hm : s.mode ≠ .faulted := fun hm => h.errIffFaulted.mpr hm he
    simp only [he] at hrecord
    cases hm' : s.mode with
    | faulted => exact absurd hm' hm
    | _ => rw [hrecord]; decide
  | _ =>
    have hm : s.mode = .faulted := h.errIffFaulted.mp (by simp [he])
    simp only [he] at hrecord
    rw [hm]
    generalize s.errInfo.toNat = info at hrecord
    interval_cases info <;> decide

/-- Settles O17: `BUFLEN` is an operand register, which both modes let the host write. -/
theorem wrregStoresBuflen : Obligations.WrregStoresBuflen := by
  unfold Obligations.WrregStoresBuflen
  intro s v hm
  have hw : (regClass .buflen).writableIn s.mode = true := by rcases hm with hm | hm <;> rw [hm] <;> rfl
  rw [exec_wrreg_of_writable v hw, writeReg_operand v rfl]
  rfl

end

section
/-! SUPPORT. A whole FILL said at once: its frame, the bytes it writes as one function of the offset, the translated phase (41 R151 to R162); and an
induction over the runs of FILLs that end in Ready. -/

open Sys2Proof Sys2Proof.Machine

namespace Sys2Proof.Machine

/-! ## The frame -/

/-- A state that differs from `s` at most in what FILL writes is `s` with those fields replaced. -/
theorem SameOutsideFill.eq_update {s t : State} (h : SameOutsideFill s t) :
    t = { s with cph := t.cph, mph := t.mph, sph := t.sph, tone := t.tone, cnt := t.cnt, buf := t.buf } :=
  State.eq_of_fields h.caps h.cfg h.buflen rfl rfl rfl rfl rfl h.mode h.err h.errInfo h.tables rfl h.bufSize h.taken h.port h.answer

/-- With SynthesisState equal too, only the buffers can differ. -/
theorem SameOutsideFill.eq_of_synthesis {s t : State} (h : SameOutsideFill s t) (hcph : t.cph = s.cph) (hphase : ∀ u, t.phase u = s.phase u)
    (htone : t.tone = s.tone) (hcnt : t.cnt = s.cnt) : t = { s with buf := t.buf } :=
  State.eq_of_fields h.caps h.cfg h.buflen hcph (hphase .mark) (hphase .space) htone hcnt h.mode h.err h.errInfo h.tables rfl h.bufSize h.taken
    h.port h.answer

theorem SameOutsideFill.symm {s t : State} (h : SameOutsideFill s t) : SameOutsideFill t s :=
  ⟨h.caps.symm, h.cfg.symm, h.buflen.symm, h.mode.symm, h.err.symm, h.errInfo.symm, h.tables.symm, h.bufSize.symm, h.taken.symm, h.port.symm,
    h.answer.symm⟩

/-! ## The bytes -/

/-- The byte a batch that starts in `s` writes at an offset: I at the even ones, Q at the odd ones, of the phases of that pair (41 R157). -/
def State.sampleByte (s : State) (tab : Tables) (off : Nat) : Option Byte :=
  tab.at s.tone (if off % 2 = 0 then .I else .Q) (((s.phase s.tone).toNat + off / 2) % s.cfg.toneLen s.tone)
    ((s.cph.toNat + off / 2) % s.cfg.carrierLen)

/-- A batch that starts `k` pairs later writes what the first one would have written `2 k` offsets on (41 R166). -/
theorem sampleByte_of_advanced {s t : State} {k : Nat} (hcfg : t.cfg = s.cfg) (htone : t.tone = s.tone)
    (hcph : t.cph.toNat = (s.cph.toNat + k) % s.cfg.carrierLen)
    (hphase : (t.phase s.tone).toNat = ((s.phase s.tone).toNat + k) % s.cfg.toneLen s.tone) (tab : Tables) (off : Nat) :
    t.sampleByte tab off = s.sampleByte tab (2 * k + off) := by
  have hhalf : (2 * k + off) / 2 = k + off / 2 := by omega
  have hparity : (2 * k + off) % 2 = off % 2 := by omega
  simp only [State.sampleByte, hcfg, htone, hcph, hphase, hhalf, hparity, Nat.mod_add_mod, Nat.add_assoc]

section Body
variable {n : Nat} {s t : State} {tab : Tables}

/-- What the body of a FILL leaves in the two phases EMIT advances, and the bytes it writes (41 R157). -/
theorem fillBody_closed (hr : s.InRange tab) (ht : s.tables = some tab) (hb : fillBody n s = .ok t) :
    t.cph.toNat = (s.cph.toNat + n) % s.cfg.carrierLen
      ∧ (t.phase s.tone).toNat = ((s.phase s.tone).toNat + n) % s.cfg.toneLen s.tone
      ∧ ∀ off < 2 * n, ∃ b, s.sampleByte tab off = some b ∧ t.buf.read off = some b := by
  obtain ⟨s₁, hemit, hbuf, hcph, hphase⟩ := fillBody_keeps_emitted hb
  obtain ⟨hc, hp, hpairs⟩ := emitLoop_closed hr ht hemit
  refine ⟨by rw [hcph, hc], by rw [hphase, hp], fun off ho => ?_⟩
  obtain ⟨bI, bQ, hI, hQ, hreadI, hreadQ⟩ := hpairs (off / 2) (by omega)
  rw [Nat.zero_add, ← hbuf] at hreadI hreadQ
  unfold State.sampleByte
  rcases Nat.mod_two_eq_zero_or_one off with heven | hodd
  · rw [show 2 * (off / 2) = off by omega] at hreadI
    exact ⟨bI, by rwa [if_pos heven], hreadI⟩
  · rw [show 2 * (off / 2) + 1 = off by omega] at hreadQ
    exact ⟨bQ, by rwa [if_neg (by omega)], hreadQ⟩

/-- The phase of the tone that was not active is the translation of the phase of the one that was (10 R26, 41 R158, R159). -/
theorem fillBody_translates (hb : fillBody n s = .ok t) :
    (t.phase s.tone.other).toNat = s.cfg.toneLen s.tone.other * (t.phase s.tone).toNat / s.cfg.toneLen s.tone := by
  obtain ⟨s₁, s₂, hemit, hxlate, htsw⟩ := fillBody_ok.mp hb
  obtain ⟨hsame, htone, -⟩ := emitLoop_frame hemit
  obtain ⟨-, hfit, rfl⟩ := xlate_ok hxlate
  obtain ⟨ht, -, -⟩ := tsw_tone_cnt htsw
  rw [htone, hsame.cfg] at hfit ht
  rw [ht, State.setToneCnt_phase, State.setToneCnt_phase, State.setPhase_phase, State.setPhase_phase_of_ne _ (Tone.ne_other _),
    toNat_ofNat_phase hfit le_rfl]

end Body

/-! ## Splitting a batch -/

/-- Two batches whose first does not flip leave the phases, the tone and the counter of one batch of their sum (41 R166). -/
theorem fillBody_split {s t t₁ t₂ : State} {n₁ n₂ : Nat} {tab : Tables} (hr : s.InRange tab) (ht : s.tables = some tab)
    (hr₁ : t₁.InRange tab) (hb : fillBody (n₁ + n₂) s = .ok t) (hb₁ : fillBody n₁ s = .ok t₁) (hb₂ : fillBody n₂ t₁ = .ok t₂)
    (hbelow : ((s.cnt.toNat + n₁ : Nat) : Int) < s.cfg.opR) : t = { t₂ with buf := t.buf } := by
  obtain ⟨hsame, -, -⟩ := fillBody_frame hb
  obtain ⟨hsame₁, -, -⟩ := fillBody_frame hb₁
  obtain ⟨hsame₂, -, -⟩ := fillBody_frame hb₂
  obtain ⟨hc, hp, -⟩ := fillBody_closed hr ht hb
  obtain ⟨hc₁, hp₁, -⟩ := fillBody_closed hr ht hb₁
  obtain ⟨hc₂, hp₂, -⟩ := fillBody_closed hr₁ (hsame₁.tables.trans ht) hb₂
  obtain ⟨hflip, hstay⟩ := fillBody_tone_cnt hb
  obtain ⟨htone₁, hcnt₁⟩ := (fillBody_tone_cnt hb₁).2 hbelow
  obtain ⟨hflip₂, hstay₂⟩ := fillBody_tone_cnt hb₂
  have hx := fillBody_translates hb
  have hx₂ := fillBody_translates hb₂
  rw [hsame₁.cfg, hc₁, Nat.mod_add_mod, Nat.add_assoc] at hc₂
  rw [hsame₁.cfg, htone₁, hp₁, Nat.mod_add_mod, Nat.add_assoc] at hp₂
  rw [hsame₁.cfg, htone₁, hp₂] at hx₂
  rw [hp] at hx
  rw [hsame₁.cfg, htone₁, hcnt₁, Nat.add_assoc] at hflip₂ hstay₂
  have hcph : t.cph = t₂.cph := BitVec.eq_of_toNat_eq (hc.trans hc₂.symm)
  have hphase (u : Tone) : t.phase u = t₂.phase u := by
    rcases Tone.eq_or_eq_other s.tone u with rfl | rfl
    · exact BitVec.eq_of_toNat_eq (hp.trans hp₂.symm)
    · exact BitVec.eq_of_toNat_eq (hx.trans hx₂.symm)
  have htonecnt : t.tone = t₂.tone ∧ t.cnt.toNat = t₂.cnt.toNat := by
    rcases lt_or_ge ((s.cnt.toNat + (n₁ + n₂) : Nat) : Int) s.cfg.opR with hlt | hge
    · obtain ⟨htone, hcnt⟩ := hstay hlt
      obtain ⟨htone₂, hcnt₂⟩ := hstay₂ hlt
      exact ⟨htone.trans htone₂.symm, hcnt.trans hcnt₂.symm⟩
    · obtain ⟨htone, hcnt⟩ := hflip hge
      obtain ⟨htone₂, hcnt₂⟩ := hflip₂ hge
      exact ⟨htone.trans htone₂.symm, by omega⟩
  exact ((hsame₁.trans hsame₂).symm.trans hsame).eq_of_synthesis hcph hphase htonecnt.1 (BitVec.eq_of_toNat_eq htonecnt.2)

/-- A phase returns after `n` steps exactly when its cycle length divides `n` (41 R167). -/
theorem add_mod_eq_self_iff_dvd {p n L : Nat} (h : p < L) : (p + n) % L = p ↔ L ∣ n := by
  conv_lhs => rhs; rw [← Nat.mod_eq_of_lt h]
  exact Nat.add_modEq_left_iff

/-! ## Runs of FILLs that end in Ready -/

theorem runFills_cons_iff {n : Count} {ns : List Count} {s u : State} {flips : Nat} :
    runFills (n :: ns) s = some (u, flips) ↔ ∃ t f, exec (.fill n) s = .next t ∧ runFills ns t = some (u, f)
      ∧ flips = f + if t.tone = s.tone then 0 else 1 := by
  constructor
  · intro h
    unfold runFills at h
    cases he : exec (.fill n) s with
    | next t =>
      simp only [he, Option.map_eq_some_iff] at h
      obtain ⟨⟨u', f⟩, hrun, heq⟩ := h
      obtain ⟨rfl, rfl⟩ := Prod.mk.inj heq
      exact ⟨t, f, rfl, hrun, rfl⟩
    | fault f => simp [he] at h
    | refused r => simp [he] at h
  · rintro ⟨t, f, he, hrun, rfl⟩
    exact runFills_cons he hrun

/-- In Faulted every FILL of a run is discarded (60 R231). -/
theorem runFills_of_faulted {ns : List Count} {s u : State} {flips : Nat} (hm : s.mode = .faulted) (h : runFills ns s = some (u, flips)) :
    u.mode = .faulted := by
  induction ns generalizing s flips with
  | nil =>
    obtain ⟨rfl, -⟩ := Prod.mk.inj (Option.some.inj h)
    exact hm
  | cons n ns ih =>
    obtain ⟨t, f, he, hrun, -⟩ := runFills_cons_iff.mp h
    obtain rfl : s = t := Host.Outcome.next.inj ((exec_fill_of_faulted hm n).symm.trans he)
    exact ih hm hrun

/-- A FILL in Ready is admitted, or ends in Faulted (41 R150). -/
theorem fill_of_ready {n : Count} {s t : State} (hm : s.mode = .ready) (h : exec (.fill n) s = .next t) :
    t.mode = .faulted ∨ (s.Admits n.toNat ∧ fillBody n.toNat s = .ok t) := by
  rcases execFill_cases h with ⟨hm', -⟩ | ⟨hm', -⟩ | ⟨-, -, rfl⟩ | ⟨-, -, -, rfl⟩ | hadmitted
  · simp [hm] at hm'
  · simp [hm] at hm'
  · exact .inl rfl
  · exact .inl rfl
  · exact .inr hadmitted

/-- A run from Ready to Ready, FILL by FILL: each of them is admitted and runs its body, for a refused one would leave the run in Faulted.
So what holds of the last state, and holds before each admitted FILL where it holds after it, holds of the first. -/
theorem runFills_ready_induction {u : State} {P : List Count → State → Nat → Prop} (hlast : u.Inv → u.mode = .ready → P [] u 0)
    (hfill : ∀ n ns s t f, s.Inv → s.mode = .ready → fillBody n.toNat s = .ok t → P ns t f → P (n :: ns) s (f + if t.tone = s.tone then 0 else 1))
    {ns : List Count} {s : State} {flips : Nat} (h : s.Inv) (hm : s.mode = .ready) (hrun : runFills ns s = some (u, flips))
    (hu : u.mode = .ready) : P ns s flips := by
  induction ns generalizing s flips with
  | nil =>
    obtain ⟨rfl, rfl⟩ := Prod.mk.inj (Option.some.inj hrun)
    exact hlast h hm
  | cons n ns ih =>
    obtain ⟨t, f, he, hrest, rfl⟩ := runFills_cons_iff.mp hrun
    rcases fill_of_ready hm he with hfaulted | ⟨ha, hb⟩
    · simp [runFills_of_faulted hfaulted hrest] at hu
    · obtain ⟨hsame, -, -⟩ := fillBody_frame hb
      exact hfill n ns s t f h hm hb (ih (exec_inv h he) (hsame.mode.trans hm) hrest)

section ReadyRuns
variable {ns : List Count} {s u : State} {flips : Nat}

/-- A FILL that flips takes `R` off the counter, one that does not takes nothing, and both add their pairs (41 R163). -/
theorem runFills_counts (h : s.Inv) (hm : s.mode = .ready) (hrun : runFills ns s = some (u, flips)) (hu : u.mode = .ready) :
    (u.cnt.toNat : Int) + flips * s.cfg.opR = s.cnt.toNat + totalPairs ns := by
  refine runFills_ready_induction (P := fun ns s flips => (u.cnt.toNat : Int) + flips * s.cfg.opR = s.cnt.toNat + totalPairs ns)
    (fun _ _ => by simp) (fun n ns s t f _ _ hb ih => ?_) h hm hrun hu
  obtain ⟨hsame, -, -⟩ := fillBody_frame hb
  obtain ⟨hflip, hstay⟩ := fillBody_tone_cnt hb
  rw [hsame.cfg] at ih
  rw [totalPairs_cons]
  rcases lt_or_ge ((s.cnt.toNat + n.toNat : Nat) : Int) s.cfg.opR with hlt | hge
  · obtain ⟨htone, hcnt⟩ := hstay hlt
    rw [if_pos htone, Nat.add_zero]
    omega
  · obtain ⟨htone, hcnt⟩ := hflip hge
    rw [if_neg (by simp [htone])]
    push_cast at hcnt ⊢
    linarith

/-- Batches of at most `R` keep a counter that starts below `R` below it: one flip is enough for each (41 R163). -/
theorem runFills_keeps_below_threshold (h : s.Inv) (hm : s.mode = .ready) (hrun : runFills ns s = some (u, flips)) (hu : u.mode = .ready) :
    (s.cnt.toNat : Int) < s.cfg.opR → (∀ n ∈ ns, (n.toNat : Int) ≤ s.cfg.opR) → (u.cnt.toNat : Int) < s.cfg.opR := by
  refine runFills_ready_induction (P := fun ns s _ => (s.cnt.toNat : Int) < s.cfg.opR → (∀ n ∈ ns, (n.toNat : Int) ≤ s.cfg.opR) →
    (u.cnt.toNat : Int) < s.cfg.opR) (fun _ _ hs _ => hs) (fun n ns s t f _ _ hb ih hs hns => ?_) h hm hrun hu
  obtain ⟨hsame, -, -⟩ := fillBody_frame hb
  obtain ⟨hflip, hstay⟩ := fillBody_tone_cnt hb
  obtain ⟨hn, hns⟩ := List.forall_mem_cons.mp hns
  rw [hsame.cfg] at ih
  refine ih ?_ hns
  rcases lt_or_ge ((s.cnt.toNat + n.toNat : Nat) : Int) s.cfg.opR with hlt | hge
  · rwa [(hstay hlt).2]
  · rw [(hflip hge).2]
    omega

/-- Each FILL, of either tone, advances the carrier phase by its pairs, modulo the same cycle length (41 R155). -/
theorem runFills_carrierPhase (h : s.Inv) (hm : s.mode = .ready) (hrun : runFills ns s = some (u, flips)) (hu : u.mode = .ready) :
    u.cph.toNat = (s.cph.toNat + totalPairs ns) % s.cfg.carrierLen := by
  refine runFills_ready_induction (P := fun ns s _ => u.cph.toNat = (s.cph.toNat + totalPairs ns) % s.cfg.carrierLen)
    (fun hinv hready => ?_) (fun n ns s t f hinv hready hb ih => ?_) h hm hrun hu
  · obtain ⟨tab, -, -, -, hcph, -⟩ := exists_inRange_of_ready hinv hready
    exact (Nat.mod_eq_of_lt hcph).symm
  · obtain ⟨tab, ht, hr⟩ := exists_inRange_of_ready hinv hready
    obtain ⟨hsame, -, -⟩ := fillBody_frame hb
    obtain ⟨hc, -, -⟩ := fillBody_closed hr ht hb
    rw [ih, hsame.cfg, hc, Nat.mod_add_mod, totalPairs_cons, Nat.add_assoc]

end ReadyRuns

end Sys2Proof.Machine

/-! ## The statements -/

/-- Settles O36: the bytes below `2 n` are the samples, the others are kept by the frame; without admission no operation writes the buffer. -/
theorem fillWritesOnlyItsPairs : Obligations.FillWritesOnlyItsPairs := by
  unfold Obligations.FillWritesOnlyItsPairs
  refine ⟨fun s n h ha => ?_, fun s t n hna he => ?_⟩
  · obtain ⟨t, he, hb, hinv⟩ := exec_fill_completes h ha
    obtain ⟨hm, hcap, -, htrue⟩ := ha
    obtain ⟨tab, ht, hr⟩ := exists_inRange_of_ready h hm
    obtain ⟨-, hkept, -⟩ := fillBody_frame hb
    obtain ⟨-, -, hbytes⟩ := fillBody_closed hr ht hb
    refine ⟨t, he, hkept, fun off ho => ?_, fun size hs => hcap.trans (capacity_le_of_buflenTrue htrue hs), hinv.bufCanonical⟩
    obtain ⟨b, -, hread⟩ := hbytes off ho
    simp [hread]
  · by_contra hne
    obtain ⟨m, hm, ha⟩ := buf_change_of_exec he hne
    obtain rfl : n = m := Instr.fill.inj hm
    exact hna ha

/-- Settles O37: the translation, read for Mark and for Space. -/
theorem fillLeavesPhasesConsistent : Obligations.FillLeavesPhasesConsistent := by
  unfold Obligations.FillLeavesPhasesConsistent
  intro s n h ha
  obtain ⟨t, he, hb, -⟩ := exec_fill_completes h ha
  have hx := fillBody_translates hb
  refine ⟨t, he, fun htone => ?_, fun htone => ?_⟩ <;>
  · rw [htone] at hx
    exact hx

/-- Settles O38: the tone and the counter are those TSW leaves. -/
theorem fillCountsAndSwitches : Obligations.FillCountsAndSwitches := by
  unfold Obligations.FillCountsAndSwitches
  intro s n h ha
  obtain ⟨t, he, hb, -⟩ := exec_fill_completes h ha
  exact ⟨t, he, fillBody_tone_cnt hb⟩

/-- Settles O39: no micro-operation writes another field. -/
theorem fillFrame : Obligations.FillFrame := by
  unfold Obligations.FillFrame
  intro s n h ha
  obtain ⟨t, he, hb, -⟩ := exec_fill_completes h ha
  obtain ⟨hsame, -, -⟩ := fillBody_frame hb
  exact ⟨t, he, hsame.eq_update⟩

/-- Settles O41: the parts are admitted with the whole; the second starts where the first has stopped, in the tables as in the buffer. -/
theorem fillSplitsIntoTwo : Obligations.FillSplitsIntoTwo := by
  unfold Obligations.FillSplitsIntoTwo
  intro s n₁ n₂ n h hsum ha hbelow
  obtain ⟨t, he, hb, -⟩ := exec_fill_completes h ha
  obtain ⟨hm, hcap, hfit, htrue⟩ := ha
  obtain ⟨tab, ht, hr⟩ := exists_inRange_of_ready h hm
  obtain ⟨t₁, he₁, hb₁, hinv₁⟩ := exec_fill_completes (n := n₁) h ⟨hm, by omega, by omega, htrue⟩
  obtain ⟨hsame₁, -, -⟩ := fillBody_frame hb₁
  have ht₁ : t₁.tables = some tab := hsame₁.tables.trans ht
  obtain ⟨htone₁, hcnt₁⟩ := (fillBody_tone_cnt hb₁).2 hbelow
  obtain ⟨t₂, he₂, hb₂, -⟩ := exec_fill_completes (n := n₂) hinv₁
    ⟨hsame₁.mode.trans hm, by rw [hsame₁.capacity]; omega, by omega, hsame₁.buflenTrue.trans htrue⟩
  rw [hsum] at hb
  have hr₁ := hinv₁.inRange tab ht₁
  obtain ⟨-, -, hbytes⟩ := fillBody_closed hr ht hb
  obtain ⟨hc₁, hp₁, hbytes₁⟩ := fillBody_closed hr ht hb₁
  obtain ⟨-, -, hbytes₂⟩ := fillBody_closed hr₁ ht₁ hb₂
  refine ⟨t, t₁, t₂, he, he₁, he₂, fillBody_split hr ht hr₁ hb hb₁ hb₂ hbelow, fun off ho => ?_, fun off ho => ?_⟩
  · obtain ⟨b, hsample, hread⟩ := hbytes off (by omega)
    obtain ⟨b₁, hsample₁, hread₁⟩ := hbytes₁ off ho
    rw [hread, hread₁, ← hsample, ← hsample₁]
  · obtain ⟨b, hsample, hread⟩ := hbytes (2 * n₁.toNat + off) (by omega)
    obtain ⟨b₂, hsample₂, hread₂⟩ := hbytes₂ off ho
    rw [hread, hread₂, ← hsample, ← hsample₂, sampleByte_of_advanced hsame₁.cfg htone₁ hc₁ hp₁]

/-- Settles O42: each phase returns at the multiples of its own cycle length, both at those of the least common one. -/
theorem phasesReturnAtMultiplesOfLcm : Obligations.PhasesReturnAtMultiplesOfLcm := by
  unfold Obligations.PhasesReturnAtMultiplesOfLcm
  intro s n h ha
  obtain ⟨t, he, hb, -⟩ := exec_fill_completes h ha
  obtain ⟨tab, ht, hr⟩ := exists_inRange_of_ready h ha.1
  obtain ⟨hc, hp, -⟩ := fillBody_closed hr ht hb
  obtain ⟨-, -, hcph, hphase⟩ := inRange_iff.mp hr
  refine ⟨t, he, hp, hc, ?_⟩
  rw [← BitVec.toNat_inj, ← BitVec.toNat_inj, hp, hc, add_mod_eq_self_iff_dvd (hphase s.tone), add_mod_eq_self_iff_dvd hcph, Nat.lcm_dvd_iff]

/-- Settles O43: the count and the bound, each by the induction over the run. -/
theorem counterIsPairsMinusFlips : Obligations.CounterIsPairsMinusFlips := by
  unfold Obligations.CounterIsPairsMinusFlips
  exact fun ns s u flips h hm hrun hu => ⟨runFills_counts h hm hrun hu, runFills_keeps_below_threshold h hm hrun hu⟩

/-- Settles O45: the carrier phase, by the induction over the run. -/
theorem carrierPhaseCountsAllPairs : Obligations.CarrierPhaseCountsAllPairs := by
  unfold Obligations.CarrierPhaseCountsAllPairs
  exact fun ns s u flips h hm hrun hu => runFills_carrierPhase h hm hrun hu

end

section
/-! SUPPORT. The entry of a legal configuration is the rounding of a sine or cosine of one angle (40 R124, R126), and what follows from the angle:
the symmetries, the unit circle, and that only the ratio of the two depth registers matters (40 R129, 10 R31). -/

open Sys2Proof Sys2Proof.Machine

namespace Sys2Proof.Machine

/-! ## Rounding -/

theorem abs_sub_roundHaz_le (x : ℝ) : |x - roundHaz x| ≤ 1 / 2 := by
  have pos : ∀ y : ℝ, 0 ≤ y → |y - roundHaz y| ≤ 1 / 2 := fun y hy => by
    rw [roundHaz_of_nonneg hy, abs_le]
    have hfloor := Int.floor_le (y + 1 / 2)
    have hceil := Int.lt_floor_add_one (y + 1 / 2)
    constructor <;> linarith
  rcases le_total 0 x with hx | hx
  · exact pos x hx
  · have h := pos (-x) (neg_nonneg.mpr hx)
    rwa [roundHaz_neg, Int.cast_neg, neg_sub_neg, abs_sub_comm] at h

/-- The rounding of a number within integer bounds is within them (40 R126). -/
theorem abs_roundHaz_le {x : ℝ} {A : Nat} (h : |x| ≤ A) : |roundHaz x| ≤ A := by
  obtain ⟨hlo, hhi⟩ := abs_le.mp h
  rw [abs_le]
  constructor
  · have := roundHaz_mono (x := ((-(A : ℤ) : ℤ) : ℝ)) (by push_cast; exact hlo)
    rwa [roundHaz_intCast] at this
  · have := roundHaz_mono (y := ((A : ℤ) : ℝ)) (by push_cast; exact hhi)
    rwa [roundHaz_intCast] at this

theorem sat8_eq_self {x : ℤ} (h : |x| ≤ 127) : sat8 x = x := by
  rw [abs_le] at h
  rw [sat8, min_eq_right h.2, max_eq_right (by omega)]

/-! ## The entry of a legal configuration -/

/-- The argument of 40 R124, for the configuration registers. -/
noncomputable def CfgRegs.angle (g : CfgRegs) (t : Tone) (s c : Nat) : ℝ :=
  entryArg g.carrierLen (g.toneLen t) g.opDnum.toNat g.opDden.toNat s c

section Legal
variable {g : CfgRegs} {k : Capacities}

/-- What the entry function needs of a legal configuration (40 R122). -/
theorem legal_operands (h : g.Legal k) :
    0 < g.carrierLen ∧ (∀ t, 0 < g.toneLen t) ∧ 0 < g.opDden.toNat ∧ (g.opA.toNat : ℤ) = g.opA ∧ g.opA ≤ 127 := by
  have hv := legal_iff.mp h
  obtain ⟨-, -, -, -, hden, hA, -⟩ := firstInvalid_eq_none.mp hv
  exact ⟨(carrierLen_bounds hv).1, fun t => (toneLen_bounds hv t).1, by omega, by omega, hA.2⟩

/-- The rounded value is within the amplitude, so the clamp changes nothing (40 R126). -/
theorem entry_eq_roundHaz (h : g.Legal k) (t : Tone) (ch : Channel) (s c : Nat) :
    g.entry t ch s c = roundHaz (entryExact (ch == .Q) g.carrierLen (g.toneLen t) g.opDnum.toNat g.opDden.toNat g.opA.toNat s c) := by
  obtain ⟨hC, hL, hden, hA, hA'⟩ := legal_operands h
  have hbound := abs_roundHaz_le (abs_entryExact_le (ch == .Q) g.carrierLen (g.toneLen t) g.opDnum.toNat g.opDden.toNat g.opA.toNat s c)
  rw [CfgRegs.entry, entry, entryRounded_eq _ hC (hL t) hden, sat8_eq_self (by omega)]

theorem entry_I (h : g.Legal k) (t : Tone) (s c : Nat) : g.entry t .I s c = roundHaz (g.opA.toNat * Real.sin (g.angle t s c)) :=
  entry_eq_roundHaz h t .I s c

theorem entry_Q (h : g.Legal k) (t : Tone) (s c : Nat) : g.entry t .Q s c = roundHaz (g.opA.toNat * Real.cos (g.angle t s c)) :=
  entry_eq_roundHaz h t .Q s c

theorem abs_entry_le (h : g.Legal k) (t : Tone) (ch : Channel) (s c : Nat) : |g.entry t ch s c| ≤ g.opA := by
  obtain ⟨-, -, -, hA, -⟩ := legal_operands h
  rw [entry_eq_roundHaz h, ← hA]
  exact abs_roundHaz_le (abs_entryExact_le ..)

/-- Entries of one angle and one amplitude are equal, be they of two tones or of two configurations. -/
theorem entry_congr {g' : CfgRegs} {k' : Capacities} (h : g.Legal k) (h' : g'.Legal k') {t t' : Tone} {s s' c c' : Nat} (hA : g.opA = g'.opA)
    (hangle : g.angle t s c = g'.angle t' s' c') (ch : Channel) : g.entry t ch s c = g'.entry t' ch s' c' := by
  cases ch with
  | I => rw [entry_I h, entry_I h', hA, hangle]
  | Q => rw [entry_Q h, entry_Q h', hA, hangle]

end Legal

/-! ## The angle -/

section Angle
variable {C L dnum dden s c : Nat}

/-- The modulating cosine is the same at `s` and at `L - s` (40 R129). -/
theorem entryArg_sub_row (hL : 0 < L) (hs : s ≤ L) : entryArg C L dnum dden (L - s) c = entryArg C L dnum dden s c := by
  have hL' : (L : ℝ) ≠ 0 := by positivity
  have hrow : ((L - s : Nat) : ℝ) * (2 * Real.pi) / L = 2 * Real.pi - s * (2 * Real.pi) / L := by
    rw [Nat.cast_sub hs]
    field_simp
  rw [entryArg, entryArg, hrow, Real.cos_two_pi_sub]

/-- In row 0 the modulating cosine is one, whatever the cycle length (40 R129). -/
theorem entryArg_row_zero (C L L' dnum dden c : Nat) : entryArg C L dnum dden 0 c = entryArg C L' dnum dden 0 c := by
  simp [entryArg]

/-- Advancing the column by `m` advances the angle by `m` parts of `C` of a turn, less the turns completed (40 R129). -/
theorem entryArg_add_column (hC : 0 < C) (m : Nat) :
    entryArg C L dnum dden s ((c + m) % C)
      = entryArg C L dnum dden s c + m * (2 * Real.pi) / C - ((c + m) / C : Nat) * (2 * Real.pi) := by
  have hC' : (C : ℝ) ≠ 0 := by positivity
  have hsplit : ((c + m) % C : Nat) = (c + m : ℝ) - C * ((c + m) / C : Nat) := by
    rw [eq_sub_iff_add_eq]
    exact_mod_cast Nat.mod_add_div (c + m) C
  rw [entryArg, entryArg, hsplit]
  field_simp
  ring

/-- Half a cycle on, the angle is half a turn further (40 R129). -/
theorem entryArg_half_turn (hC : 0 < C) (h : 2 ∣ C) :
    entryArg C L dnum dden s ((c + C / 2) % C)
      = entryArg C L dnum dden s c + Real.pi - ((c + C / 2) / C : Nat) * (2 * Real.pi) := by
  have hC' : (C : ℝ) ≠ 0 := by positivity
  have hpart : ((C / 2 : Nat) : ℝ) * (2 * Real.pi) / C = Real.pi := by
    rw [Nat.cast_div h (by norm_num)]
    field_simp
    norm_num
  rw [entryArg_add_column hC, hpart]

/-- A quarter of a cycle on, the angle is a quarter turn further (40 R129). -/
theorem entryArg_quarter_turn (hC : 0 < C) (h : 4 ∣ C) :
    entryArg C L dnum dden s ((c + C / 4) % C)
      = entryArg C L dnum dden s c + Real.pi / 2 - ((c + C / 4) / C : Nat) * (2 * Real.pi) := by
  have hC' : (C : ℝ) ≠ 0 := by positivity
  have hpart : ((C / 4 : Nat) : ℝ) * (2 * Real.pi) / C = Real.pi / 2 := by
    rw [Nat.cast_div h (by norm_num)]
    field_simp
    norm_num
  rw [entryArg_add_column hC, hpart]

end Angle

/-! ## The symmetries -/

section Symmetries
variable {g : CfgRegs} {k : Capacities}

theorem entry_half_turn (h : g.Legal k) (hC : 2 ∣ g.carrierLen) (t : Tone) (ch : Channel) (s c : Nat) :
    g.entry t ch s ((c + g.carrierLen / 2) % g.carrierLen) = -g.entry t ch s c := by
  have hangle : g.angle t s ((c + g.carrierLen / 2) % g.carrierLen) = _ := entryArg_half_turn (legal_operands h).1 hC
  cases ch with
  | I => rw [entry_I h, entry_I h, hangle, Real.sin_sub_nat_mul_two_pi, Real.sin_add_pi, mul_neg, roundHaz_neg, CfgRegs.angle]
  | Q => rw [entry_Q h, entry_Q h, hangle, Real.cos_sub_nat_mul_two_pi, Real.cos_add_pi, mul_neg, roundHaz_neg, CfgRegs.angle]

theorem entry_quarter_turn (h : g.Legal k) (hC : 4 ∣ g.carrierLen) (t : Tone) (s c : Nat) :
    g.entry t .I s ((c + g.carrierLen / 4) % g.carrierLen) = g.entry t .Q s c := by
  have hangle : g.angle t s ((c + g.carrierLen / 4) % g.carrierLen) = _ := entryArg_quarter_turn (legal_operands h).1 hC
  rw [entry_I h, entry_Q h, hangle, Real.sin_sub_nat_mul_two_pi, Real.sin_add_pi_div_two, CfgRegs.angle]

end Symmetries

/-! ## The unit circle -/

/-- A point of the circle of radius `A`, both coordinates moved by at most a half, is off it by at most `A √2 + 1/2` in the squares (40 R129):
the part linear in the errors is bounded by Cauchy and Schwarz. -/
theorem abs_rounded_circle_le {A x p q : ℝ} (hA : 0 ≤ A) (hp : |A * Real.sin x - p| ≤ 1 / 2) (hq : |A * Real.cos x - q| ≤ 1 / 2) :
    |p ^ 2 + q ^ 2 - A ^ 2| ≤ A * Real.sqrt 2 + 1 / 2 := by
  obtain ⟨d, rfl⟩ : ∃ d, p = A * Real.sin x - d := ⟨A * Real.sin x - p, by ring⟩
  obtain ⟨e, rfl⟩ : ∃ e, q = A * Real.cos x - e := ⟨A * Real.cos x - q, by ring⟩
  rw [sub_sub_cancel] at hp hq
  have hcircle := Real.sin_sq_add_cos_sq x
  have hd : d ^ 2 ≤ 1 / 4 := by rw [← sq_abs]; nlinarith [abs_nonneg d]
  have he : e ^ 2 ≤ 1 / 4 := by rw [← sq_abs]; nlinarith [abs_nonneg e]
  have hlinear : |2 * (d * Real.sin x + e * Real.cos x)| ≤ Real.sqrt 2 := by
    refine Real.abs_le_sqrt ?_
    have hcs : (d * Real.sin x + e * Real.cos x) ^ 2 + (d * Real.cos x - e * Real.sin x) ^ 2 = d ^ 2 + e ^ 2 := by
      linear_combination (d ^ 2 + e ^ 2) * hcircle
    nlinarith [sq_nonneg (d * Real.cos x - e * Real.sin x)]
  have hexpand : (A * Real.sin x - d) ^ 2 + (A * Real.cos x - e) ^ 2 - A ^ 2
      = (d ^ 2 + e ^ 2) - A * (2 * (d * Real.sin x + e * Real.cos x)) := by
    linear_combination A ^ 2 * hcircle
  rw [abs_le] at hlinear
  have hlo := mul_le_mul_of_nonneg_left hlinear.1 hA
  have hhi := mul_le_mul_of_nonneg_left hlinear.2 hA
  rw [hexpand, abs_le]
  constructor <;> nlinarith [sq_nonneg d, sq_nonneg e]

/-! ## The ratio of the depth registers -/

theorem tables_congr {g g' : CfgRegs} (hC : g.carrierLen = g'.carrierLen) (hL : g.toneLen = g'.toneLen)
    (h : ∀ t ch s c, g.entry t ch s c = g'.entry t ch s c) : g.tables = g'.tables := by
  simp only [CfgRegs.tables, CfgRegs.table, hC, hL, h]

/-- The angle depends on the two depth registers by their ratio only (10 R31). -/
theorem angle_of_same_ratio {g g' : CfgRegs} {k k' : Capacities} (h : g.Legal k) (h' : g'.Legal k') (hC : g.carrierLen = g'.carrierLen)
    (hL : g.toneLen = g'.toneLen) (hratio : g.opDnum * g'.opDden = g'.opDnum * g.opDden) (t : Tone) (s c : Nat) :
    g.angle t s c = g'.angle t s c := by
  obtain ⟨-, -, hden, -⟩ := legal_operands h
  obtain ⟨-, -, hden', -⟩ := legal_operands h'
  obtain ⟨-, -, -, hnum, -⟩ := firstInvalid_eq_none.mp (legal_iff.mp h)
  obtain ⟨-, -, -, hnum', -⟩ := firstInvalid_eq_none.mp (legal_iff.mp h')
  have hratio' : g.opDnum.toNat * g'.opDden.toNat = g'.opDnum.toNat * g.opDden.toNat := by
    zify
    rwa [Int.toNat_of_nonneg (by omega), Int.toNat_of_nonneg (by omega), Int.toNat_of_nonneg (by omega), Int.toNat_of_nonneg (by omega)]
  have hquot : (g.opDnum.toNat : ℝ) / g.opDden.toNat = g'.opDnum.toNat / g'.opDden.toNat := by
    rw [div_eq_div_iff (by positivity) (by positivity)]
    exact_mod_cast hratio'
  rw [CfgRegs.angle, CfgRegs.angle, entryArg, entryArg, hquot, hC, hL]

end Sys2Proof.Machine

/-! ## The statements -/

/-- Settles O22: BUILD loads the tables of the configuration, which hold an entry exactly in range. -/
theorem buildPopulatesEveryEntry : Obligations.BuildPopulatesEveryEntry := by
  unfold Obligations.BuildPopulatesEveryEntry
  intro s hm hl
  refine ⟨_, s.cfg.tables, exec_build_of_legal hm hl, rfl, fun tone ch i c => ?_⟩
  split_ifs with hin
  · exact tables_at s.cfg tone ch hin.1 hin.2
  · exact tables_at_none s.cfg tone ch hin

/-- Settles O25: an entry is at most 127 in size, so its byte reads back as it and is not that of -128. -/
theorem entryWithinAmplitude : Obligations.EntryWithinAmplitude := by
  unfold Obligations.EntryWithinAmplitude
  intro g k tone ch s c hl
  have hentry := abs_entry_le hl tone ch s c
  obtain ⟨-, -, -, -, hA⟩ := legal_operands hl
  obtain ⟨hlo, hhi⟩ := abs_le.mp (hentry.trans hA)
  have hread : (tc8 (g.entry tone ch s c)).toInt = g.entry tone ch s c := toInt_tc8 (by omega) hhi
  refine ⟨hentry, hread, fun hbyte => ?_⟩
  rw [hbyte, show (0x80#8).toInt = -128 by decide] at hread
  omega

/-- Settles O26: the evaluation rounds to the exact value, and the clamp is the same on both sides. -/
theorem entryIsExactReal : Obligations.EntryIsExactReal := by
  unfold Obligations.EntryIsExactReal
  intro g k tone ch s c hl _ _
  obtain ⟨hC, hL, hden, -⟩ := legal_operands hl
  exact congrArg sat8 (entryRounded_eq _ hC (hL tone) hden _ s c)

/-- Settles O27: each symmetry is one of the angle. -/
theorem entriesAreSymmetric : Obligations.EntriesAreSymmetric := by
  unfold Obligations.EntriesAreSymmetric
  intro g k tone s c hl hs _
  obtain ⟨-, hL, -⟩ := legal_operands hl
  exact ⟨fun ch _ => entry_congr hl hl rfl (entryArg_sub_row (hL tone) hs.le).symm ch, fun ch => entry_congr hl hl rfl (entryArg_row_zero ..) ch,
    fun ch hC => entry_half_turn hl hC tone ch s c, fun hC => entry_quarter_turn hl hC tone s c⟩

/-- Settles O28: the two entries are the rounded coordinates of a point of the circle of radius `A`. -/
theorem entriesOnUnitCircle : Obligations.EntriesOnUnitCircle := by
  unfold Obligations.EntriesOnUnitCircle
  intro g k tone s c hl _ _
  obtain ⟨-, -, -, hA, -⟩ := legal_operands hl
  have hA' : (g.opA : ℝ) = (g.opA.toNat : ℝ) := by exact_mod_cast hA.symm
  rw [hA', entry_I hl, entry_Q hl]
  exact abs_rounded_circle_le (Nat.cast_nonneg _) (abs_sub_roundHaz_le _) (abs_sub_roundHaz_le _)

/-- Settles O29: both BUILDs load the tables of their configurations, whose entries have the same angles. -/
theorem sameRatioGivesSameTables : Obligations.SameRatioGivesSameTables := by
  unfold Obligations.SameRatioGivesSameTables
  intro s s' dnum dden hm hl hs' hl' hratio
  have hm' : s'.mode = .unbuilt := by rw [hs', hm]
  have hC : s.cfg.carrierLen = s'.cfg.carrierLen := by rw [hs']; rfl
  have hL : s.cfg.toneLen = s'.cfg.toneLen := by rw [hs']; funext t; cases t <;> rfl
  have hA : s.cfg.opA = s'.cfg.opA := by rw [hs']; rfl
  refine ⟨_, _, exec_build_of_legal hm hl, exec_build_of_legal hm' hl', by simp, ?_⟩
  exact congrArg some (tables_congr hC hL fun t ch i c => entry_congr hl hl' hA (angle_of_same_ratio hl hl' hC hL hratio t i c) ch)

end

section
/-! SUPPORT. The values a listing may hold, and the moves each of its operations stands for (30 R99, R100). -/

open Sys2Proof Sys2Proof.Machine

namespace Sys2Proof.Machine

/-! ## Values -/

theorem asmValue_of_range {v : Int} (h : -(2 ^ 31) ≤ v) (h' : v < 2 ^ 32) : asmValue v = some (BitVec.ofInt 32 v) :=
  if_pos ⟨h, h'⟩

theorem asmValue_natCast {n : Nat} (h : n < 2 ^ 32) : asmValue n = some (BitVec.ofNat 32 n) := by
  rw [asmValue_of_range (by omega) (by omega), BitVec.ofInt_natCast]

theorem asmValue_toInt (v : Word) : asmValue v.toInt = some v := by
  have hlo := BitVec.le_two_mul_toInt (x := v)
  have hhi := BitVec.two_mul_toInt_lt (x := v)
  rw [asmValue_of_range (by omega) (by omega), BitVec.ofInt_toInt]

/-- A negative value `-k` is stored as `2^32 - k` (30 R99). -/
theorem asmValue_neg {k : Nat} (h : k ≤ 2 ^ 31) : asmValue (-(k : Int)) = some (BitVec.ofNat 32 (2 ^ 32 - k)) := by
  rw [asmValue_of_range (by omega) (by omega)]
  refine congrArg some (BitVec.eq_of_toNat_eq ?_)
  rw [BitVec.toNat_ofInt, BitVec.toNat_ofNat]
  omega

/-! ## Operations -/

theorem asmWrreg_of_value {r : Reg} {value : Int} {v : Word} (hr : r ≠ .cmd) (hv : asmValue value = some v) :
    asmWrreg r value = some [.bus (encode (.wrreg r v))] := by
  rw [asmWrreg, if_neg hr, hv]
  rfl

theorem asmWrreg_toInt {r : Reg} (hr : r ≠ .cmd) (v : Word) : asmWrreg r v.toInt = some [.bus (encode (.wrreg r v))] :=
  asmWrreg_of_value hr (asmValue_toInt v)

theorem asmFill_of_lt {n : Nat} (h : n < 2 ^ 28) : asmFill n = some [.bus (encode (.fill (BitVec.ofNat 28 n)))] := if_pos h

/-- `CMDW` is the write of a command word to `CMD` (30 R99). -/
theorem assemble_cmdw {word : Nat} (h : word < 2 ^ 32) : assemble (.cmdw word) = some [.bus (busWord 1 15 (BitVec.ofNat 32 word))] := if_pos h

/-! ## Names of registers -/

theorem readRegWord_regName (r : Reg) : readRegWord (regName r) = some r := by cases r <;> decide

theorem readRegWord_index (r : Reg) : readRegWord (Nat.toDigits 10 r.idx.toNat) = some r := by cases r <;> decide

end Sys2Proof.Machine

/-! ## The statements -/

/-- Settles O4: five closed words. -/
theorem writtenOutWordsDecode : Obligations.WrittenOutWordsDecode := by
  unfold Obligations.WrittenOutWordsDecode
  decide

/-- Settles O5: every value written is one a listing may hold, and the operations follow one another. -/
theorem pseudoOperationsExpand : Obligations.PseudoOperationsExpand := by
  unfold Obligations.PseudoOperationsExpand
  refine ⟨fun bytes h => ?_, fun c lm ls dnum dden a r t0 => ?_⟩
  · have hbuflen := asmWrreg_of_value (r := .buflen) (by decide) (asmValue_natCast (n := bytes) (by omega))
    rw [assemble, hbuflen, asmFill_of_lt h]
    rfl
  · rw [assemble, asmWrreg_toInt (r := .cfgC) (by decide), asmWrreg_toInt (r := .cfgLm) (by decide), asmWrreg_toInt (r := .cfgLs) (by decide),
      asmWrreg_toInt (r := .cfgDnum) (by decide), asmWrreg_toInt (r := .cfgDden) (by decide), asmWrreg_toInt (r := .cfgA) (by decide),
      asmWrreg_toInt (r := .cfgR) (by decide), asmWrreg_toInt (r := .cfgT0) (by decide)]
    rfl

/-- Settles O6: operation by operation; a `CMDW` is decoded as its command word, and FILL's is `0x20000000 + n`. -/
theorem listingOperationsStandForMoves : Obligations.ListingOperationsStandForMoves := by
  unfold Obligations.ListingOperationsStandForMoves
  refine ⟨rfl, rfl, fun r => rfl, fun r v hr => ?_, fun r k hr _ hk => asmWrreg_of_value hr (asmValue_neg hk), fun v => rfl, fun n => ?_,
    by decide, fun n hn => ?_, fun w => ?_, readRegWord_regName, readRegWord_index⟩
  · refine asmWrreg_of_value hr ?_
    rw [asmValue_natCast v.isLt, BitVec.ofNat_toNat, BitVec.setWidth_eq]
  · split_ifs with hn
    · exact asmFill_of_lt (by omega)
    · exact if_neg (by omega)
  · have hcount : (BitVec.ofNat 28 n).toNat = n := by rw [BitVec.toNat_ofNat, Nat.mod_eq_of_lt (by omega)]
    have hword := ofNat_eq_cmdWord_fill (BitVec.ofNat 28 n)
    rw [hcount] at hword
    rw [assemble_cmdw (by omega), hword]
    exact (asmFill_of_lt (by omega)).symm
  · refine ⟨busWord 1 15 w, ?_, decode_busWord_cmd w⟩
    rw [assemble_cmdw w.isLt, BitVec.ofNat_toNat, BitVec.setWidth_eq]

end
